-- ==== Sys2Proof/Word.lean ====
section
/-! DEFINITION. The machine word: one 32-bit two's-complement integer, the unit of memory, of registers and
of I/O (00_scope.md R6, R7, R9; the width is decision D1, log 1). -/

namespace Sys2Proof

/-- `WORD_BITS` of R6: the width of the accumulator, of a memory cell, of the instruction register and of
every integer that crosses the I/O port (D1). -/
abbrev wordBits : Nat := 32

/-- A word. It is read as a signed integer by `BitVec.toInt` (R7: "Comparisons on words are signed"). -/
abbrev Word := BitVec wordBits

/-- `MIN_INT` of R6. -/
def minInt : Int := -2147483648

/-- `MAX_INT` of R6. -/
def maxInt : Int := 2147483647

/-- `wrap(v)` of R7: the word congruent to `v` modulo `2^WORD_BITS`. -/
def wrap (v : Int) : Word := BitVec.ofInt wordBits v

end Sys2Proof
end

