-- ==== Sys2Proof/Config.lean ====
section
/-! DEFINITION. The implementation parameters of 00_scope.md R6, each at the value this hardware takes.
The one parameter the spec leaves OPEN, the I/O collaborator `Io` (D14), is not here: its answers are plain
data in State (Machine/State.lean, log 4), so that every statement over all states holds for every
collaborator. -/

namespace Sys2Proof

/-- `MEMORY_SIZE` of R6: the number of memory cells (D6). -/
abbrev memorySize : Nat := 100

/-- `OPERAND_MODULUS` of R6: the power of ten that splits a word into opcode and operand (R51). -/
abbrev operandModulus : Nat := 100

/-- What arithmetic does with an exact result outside `[MIN_INT, MAX_INT]` (`OVERFLOW_POLICY` of R6; U1, U2
say a model carries it as a parameter). -/
inductive OverflowPolicy where
  /-- The result is reduced modulo `2^WORD_BITS` into the signed range, no error (R91). -/
  | wrap
  /-- The cautious alternative of U1 and U2: the machine stops with `Fault.overflow`. Not this hardware's. -/
  | fault
  deriving DecidableEq, Repr

/-- `OVERFLOW_POLICY` of R6 for ADD, SUBTRACT and MULTIPLY (decision D2, log 2). -/
def overflowPolicy : OverflowPolicy := .wrap

/-- `DIV_MIN_BY_MINUS1` of R6: what DIVIDE does with `MIN_INT / -1` (decision D3, log 2). -/
def divMinByMinus1 : OverflowPolicy := .wrap

/-- `HALT_ADVANCES_PC` of R6: step 5 applies to HALT (decision D5, log 6). -/
def haltAdvancesPc : Bool := true

end Sys2Proof
end

