-- ==== Sys2Proof/Syntax.lean ====
section
/-! DEFINITION. The instruction set: one constructor for each of the twelve rows of spec/opcode_table.json
(30_encoding.md R54). Every instruction carries its two-digit operand, HALT too, whose operand is ignored
(R57) but is part of its word. -/

namespace Sys2Proof

/-- The closed instruction set (R54, R121). The argument is the operand. -/
inductive Instr where
  /-- READ (R71): an integer from the I/O collaborator into the cell `operand`. -/
  | read (operand : Nat)
  /-- WRITE (R72): the cell `operand` to the I/O collaborator. -/
  | write (operand : Nat)
  /-- LOAD (R80): the cell `operand` into the accumulator. -/
  | load (operand : Nat)
  /-- STORE (R81): the accumulator into the cell `operand`. -/
  | store (operand : Nat)
  /-- ADD (R92). -/
  | add (operand : Nat)
  /-- SUBTRACT (R93). -/
  | subtract (operand : Nat)
  /-- DIVIDE (R95). -/
  | divide (operand : Nat)
  /-- MULTIPLY (R94). -/
  | multiply (operand : Nat)
  /-- JUMP (R111): to the address `operand`. -/
  | jump (operand : Nat)
  /-- JUMP_IF_NEGATIVE (R112). -/
  | jumpIfNegative (operand : Nat)
  /-- JUMP_IF_ZERO (R113). -/
  | jumpIfZero (operand : Nat)
  /-- HALT (R114). -/
  | halt (operand : Nat)
  deriving DecidableEq, Repr

/-- The operand field of an instruction (R53). -/
def Instr.operand : Instr → Nat
  | .read a | .write a | .load a | .store a => a
  | .add a | .subtract a | .divide a | .multiply a => a
  | .jump a | .jumpIfNegative a | .jumpIfZero a | .halt a => a

/-- The instruction's name: the source's variant name of R54 (`name()` of R121; N9: the source gives no other
string). -/
def Instr.variantName : Instr → String
  | .read _ => "READ"
  | .write _ => "WRITE"
  | .load _ => "LOAD"
  | .store _ => "STORE"
  | .add _ => "ADD"
  | .subtract _ => "SUBTRACT"
  | .divide _ => "DIVIDE"
  | .multiply _ => "MULTIPLY"
  | .jump _ => "JUMP"
  | .jumpIfNegative _ => "JUMP_IF_NEGATIVE"
  | .jumpIfZero _ => "JUMP_IF_ZERO"
  | .halt _ => "HALT"

end Sys2Proof
end

