-- ==== Sys2Proof/WellFormed.lean ====
section
/-! DEFINITION. Which terms of Instr name an instruction of the machine: those whose operand fits its two
decimal digits (30_encoding.md R52, R53). -/

namespace Sys2Proof

/-- "`0 <= a <= 99`" of R52: the operand fits the field. -/
def operandFits (a : Nat) : Bool := decide (a < operandModulus)

/-- A well-formed instruction: one that some valid instruction word encodes (R52). The check is the same for
all twelve. -/
def Instr.wf : Instr → Bool
  | .read a => operandFits a
  | .write a => operandFits a
  | .load a => operandFits a
  | .store a => operandFits a
  | .add a => operandFits a
  | .subtract a => operandFits a
  | .divide a => operandFits a
  | .multiply a => operandFits a
  | .jump a => operandFits a
  | .jumpIfNegative a => operandFits a
  | .jumpIfZero a => operandFits a
  | .halt a => operandFits a

end Sys2Proof
end

