-- ==== Sys2Proof/Decode.lean ====
section
/-! DEFINITION. The decimal encoding (30_encoding.md R50 to R60): the split of a word, the constant dispatch
table, the decoder (total; it rejects by name) and the encoder. -/

namespace Sys2Proof

/-- `opcode(w) = tdiv(w, 100)` (R51): all decimal digits above the lowest two. -/
def opcodeField (w : Word) : Int := w.toInt.tdiv operandModulus

/-- `operand(w) = tmod(w, 100)` (R51): the lowest two decimal digits. Negative or zero for a negative word,
which is never an instruction (R56). -/
def operandField (w : Word) : Int := w.toInt.tmod operandModulus

/-- The dispatcher (44_dispatch_and_engine.md R120): from any integer opcode to the instruction it selects,
waiting for its operand, or absent. It compares the whole opcode value (R56: `11007` is not READ). -/
def dispatch (c : Int) : Option (Nat → Instr) :=
  if c = 10 then some .read
  else if c = 11 then some .write
  else if c = 20 then some .load
  else if c = 21 then some .store
  else if c = 30 then some .add
  else if c = 31 then some .subtract
  else if c = 32 then some .divide
  else if c = 33 then some .multiply
  else if c = 40 then some .jump
  else if c = 41 then some .jumpIfNegative
  else if c = 42 then some .jumpIfZero
  else if c = 43 then some .halt
  else none

/-- Why a word is not an instruction. -/
inductive DecodeReject where
  /-- The opcode has no entry in the dispatch table (R55); the engine raises `UnknownOpcode` (R127). -/
  | unknownOpcode (opcode : Int)
  deriving DecidableEq, Repr

/-- Decode and dispatch one word (stages 2 and 3 of R124). Total on every word (R58). -/
def decode (w : Word) : Except DecodeReject Instr :=
  match dispatch (opcodeField w) with
  | some mk => .ok (mk (operandField w).toNat)
  | none => .error (.unknownOpcode (opcodeField w))

/-- The opcode number of an instruction (R54; note DIVIDE 32 and MULTIPLY 33, C10). -/
def Instr.opcode : Instr → Nat
  | .read _ => 10
  | .write _ => 11
  | .load _ => 20
  | .store _ => 21
  | .add _ => 30
  | .subtract _ => 31
  | .divide _ => 32
  | .multiply _ => 33
  | .jump _ => 40
  | .jumpIfNegative _ => 41
  | .jumpIfZero _ => 42
  | .halt _ => 43

/-- `encode(c, a) = c*100 + a` (R52): the one word of an instruction. -/
def encode (i : Instr) : Word := BitVec.ofNat wordBits (i.opcode * operandModulus + i.operand)

/-- The decoder on a word given as a number. An instruction is one word (R50), so the bits a table row leaves
out above `nbits` are zeros and the number is the word. -/
def decodeTableWord (_nbits w : Nat) : Option Instr :=
  match decode (BitVec.ofNat wordBits w) with
  | .ok i => some i
  | .error _ => none

end Sys2Proof
end

