-- ==== Sys2Proof/Machine/State.lean ====
section
/-! DEFINITION. The state of the machine: the five fields of the Machine State (10_state.md R10) and, as plain
data beside them, what R19 says a model carries as the environment: the I/O collaborator's answers and output
stream, the diagnostic channel, and the host's side of its port (70_reset_and_hazards.md R177). -/

namespace Sys2Proof.Machine

/-- The four run errors, a closed enumeration (60_exceptions.md R140). Raising one is a transition to Halted
(R147), so it is a NEXT state of the model, never a stop. -/
inductive RunError where
  /-- The decoded opcode has no registered instruction (R141). -/
  | unknownOpcode
  /-- DIVIDE with a zero divisor (R142). -/
  | divisionByZero
  /-- A fetch, read or write outside `[0, MEMORY_SIZE)` (R143). -/
  | addressOutOfRange
  /-- The collaborator failed a read or a write (R144). -/
  | ioFailure
  deriving DecidableEq, Repr

/-- What `execute` returns (44_dispatch_and_engine.md R123; D11). -/
inductive RunOutcome where
  /-- The run ended by HALT. -/
  | completed
  /-- The run ended by a run error. -/
  | failed (error : RunError)
  deriving DecidableEq, Repr

/-- One answer of the collaborator to an `IoRead` (40_io.md R70). -/
inductive ReadAnswer where
  /-- `Value(v)`, `v` a word. -/
  | value (v : Word)
  /-- `Fail`. -/
  | fail
  deriving DecidableEq, Repr

/-- One answer of the collaborator to an `IoWrite` (R70). -/
inductive WriteAnswer where
  /-- `Ok`: the word is on the output stream. -/
  | ok
  /-- `Fail`: nothing is appended (D15). -/
  | fail
  deriving DecidableEq, Repr

/-- The host's operations (R177). An address is any integer: the validator rejects the ones out of range. -/
inductive HostOp where
  /-- `reset()` (R170). -/
  | reset
  /-- `load(image)` (R172). -/
  | load (image : List Word)
  /-- `execute()` (R173). -/
  | execute
  /-- `readMemory(a)` (20_memory.md R44). -/
  | readMemory (address : Int)
  /-- `writeMemory(a, v)` (R44). -/
  | writeMemory (address : Int) (value : Word)
  /-- `dumpMemory()` (R157). -/
  | dumpMemory
  /-- `dumpRegisters()` (R157). -/
  | dumpRegisters
  deriving DecidableEq, Repr

/-- The failures that are returned to the host and are not run errors (60_exceptions.md R159). -/
inductive HostError where
  /-- `load` with an image whose length is not `MEMORY_SIZE`. -/
  | imageLengthMismatch
  /-- `readMemory` or `writeMemory` with a bad address. -/
  | addressOutOfRange
  deriving DecidableEq, Repr

/-- What a host operation returns (the "Result" column of R177). -/
inductive HostResult where
  /-- `reset` is done, or `load` / `writeMemory` answered ok. -/
  | done
  /-- The word `readMemory` returns. -/
  | word (v : Word)
  /-- The 100 words of `dumpMemory`, in address order. -/
  | cells (image : List Word)
  /-- The four registers of `dumpRegisters` (D20). -/
  | registers (acc : Word) (pc : Nat) (ir : Word) (running : Bool)
  /-- `execute` returns at the end of the run. -/
  | runEnded (outcome : RunOutcome)
  /-- The operation failed; no state changed. -/
  | rejected (error : HostError)
  deriving DecidableEq, Repr

/-- Memory: the listed cells by rising address, no cell listed that holds what an unlisted one reads as
(`Memory.wf` in Machine/Ops.lean). The smallest addressable unit is a cell of one word (20_memory.md R30, R33),
so an entry is a cell address and a WORD (log 3). -/
abbrev Memory := List (Nat × Word)

/-- Why the machine stops without a next state. -/
inductive Fault where
  /-- Raised by ADD, SUBTRACT, MULTIPLY or DIVIDE when the exact result does not fit and the parameter
  `overflowPolicy` (or `divMinByMinus1`) of Config is `fault` (U1, U2). Safe. At this hardware's value `wrap`
  no step raises it. -/
  | overflow
  deriving DecidableEq, Repr

/-- Why the model gives a step no move. -/
inductive Refusal where
  /-- Raised by the arm of `exec` of an instruction without a meaning. Safe. No arm raises it: all twelve
  instructions have their meaning. -/
  | notModelled (mnemonic : String)
  /-- Raised by `hostOperation` for a host operation that arrives while `running = true` (R176, D9, U11: "refuse
  (no move)"). Safe. `step` never raises it: it serves the host only while halted. -/
  | hostOperationDuringRun
  deriving DecidableEq, Repr

end Sys2Proof.Machine

namespace Sys2Proof.Machine

/-- The whole state. -/
structure State where
  /-- `accumulator` (R11). -/
  acc : Word
  /-- `programCounter`, a cell index in `0 .. MEMORY_SIZE` (R12, D7). -/
  pc : Nat
  /-- `instructionRegister` (R14). -/
  ir : Word
  /-- The run flag, which is the engine's state: true is Running, false is Halted (R15, R122). -/
  running : Bool
  /-- `memory` (R17). -/
  mem : Memory
  /-- The answers the collaborator has ready for the coming `IoRead`s; empty is "no answer (yet)" (R70, log 4). -/
  inputs : List ReadAnswer
  /-- The answers to the coming `IoWrite`s (R70, log 4). -/
  writeAnswers : List WriteAnswer
  /-- The answer to every `IoWrite` after those; `IoWrite` never waits (R70(a), log 4). -/
  writeRest : WriteAnswer
  /-- The output stream, oldest word first (R19(b), R37). -/
  output : List Word
  /-- The diagnostic channel: the run errors reported, oldest first (R19(c), R147). -/
  reports : List RunError
  /-- Host operations not yet performed, oldest first (R177, log 5). -/
  hostOps : List HostOp
  /-- What the host's operations returned, oldest first (R177, log 5). -/
  hostResults : List HostResult
  deriving DecidableEq, Repr

/-- The machine right after reset, which is the machine as created (R21, R171): every field of the Machine State
zero, not running, no cell listed. The environment's fields are at the values of logs 4 and 5. -/
def State.reset : State where
  acc := 0
  pc := 0
  ir := 0
  running := false
  mem := []
  inputs := []
  writeAnswers := []
  writeRest := .ok
  output := []
  reports := []
  hostOps := []
  hostResults := []

end Sys2Proof.Machine
end

