-- ==== Sys2Proof/Machine/Ops.lean ====
section
/-! DEFINITION. The named operations over memory and registers: the field updates, the cells, the address
validator (20_memory.md R31), fetch, the program-counter controller's advance (44_dispatch_and_engine.md R129),
raising a run error (60_exceptions.md R147), and how an execute stage becomes a step. -/

namespace Sys2Proof.Machine

/-! ### Field updates -/

/-- `acc <- v`. -/
def State.setAcc (s : State) (v : Word) : State := { s with acc := v }

/-- `pc <- a`; never validated at the write (R32(c)). -/
def State.setPc (s : State) (a : Nat) : State := { s with pc := a }

/-- `ir <- w` (only by a successful fetch and by reset, R14). -/
def State.setIr (s : State) (w : Word) : State := { s with ir := w }

/-- Memory replaced by `m`. -/
def State.setMem (s : State) (m : Memory) : State := { s with mem := m }

/-- The collaborator's answers still to come. -/
def State.setInputs (s : State) (l : List ReadAnswer) : State := { s with inputs := l }

/-- The collaborator's scripted write answers still to come. -/
def State.setWriteAnswers (s : State) (l : List WriteAnswer) : State := { s with writeAnswers := l }

/-- `v` appended to the output stream. -/
def State.emit (s : State) (v : Word) : State := { s with output := s.output ++ [v] }

/-- One `Report(E)` on the diagnostic channel (R147). -/
def State.report (s : State) (e : RunError) : State := { s with reports := s.reports ++ [e] }

/-- The run ends: `running <- false` and `execute` returns the outcome to the host (R123). -/
def State.endRun (s : State) (o : RunOutcome) : State :=
  { s with running := false, hostResults := s.hostResults ++ [.runEnded o] }

/-- A run starts: `pc <- 0`, `running <- true`, nothing else (R123, R173, D8). -/
def State.startRun (s : State) : State := { s with pc := 0, running := true }

/-- The host operations still to be performed. -/
def State.setHostOps (s : State) (l : List HostOp) : State := { s with hostOps := l }

/-- A result returned to the host. -/
def State.answerHost (s : State) (r : HostResult) : State := { s with hostResults := s.hostResults ++ [r] }

/-! ### Memory -/

/-- What a cell that is not listed holds: 0, the reset contents of every cell (10_state.md R21). -/
def Memory.unlistedValue : Word := 0

/-- The word in the cell `a`. -/
def Memory.cell : Memory → Nat → Word
  | [], _ => Memory.unlistedValue
  | (k, w) :: m, a => if k = a then w else Memory.cell m a

/-- The memory with `v` in the cell `a`, kept canonical. -/
def Memory.store : Memory → Nat → Word → Memory
  | [], a, v => if v = Memory.unlistedValue then [] else [(a, v)]
  | (k, w) :: m, a, v =>
    if a < k then (if v = Memory.unlistedValue then (k, w) :: m else (a, v) :: (k, w) :: m)
    else if a = k then (if v = Memory.unlistedValue then m else (a, v) :: m)
    else (k, w) :: Memory.store m a v

/-- Canonical from the address `lo` on: addresses strictly rising, none below `lo`, all in range, no listed value
equal to the unlisted one. -/
def Memory.wfFrom : Nat → Memory → Bool
  | _, [] => true
  | lo, (k, w) :: m =>
    decide (lo ≤ k) && decide (k < memorySize) && decide (w ≠ Memory.unlistedValue) && Memory.wfFrom (k + 1) m

/-- The canonical form. -/
def Memory.wf (m : Memory) : Bool := Memory.wfFrom 0 m

/-- The memory whose cells from `a` on hold the words of the list. -/
def Memory.ofCellsFrom : Nat → List Word → Memory
  | _, [] => []
  | a, v :: l => if v = Memory.unlistedValue then Memory.ofCellsFrom (a + 1) l else (a, v) :: Memory.ofCellsFrom (a + 1) l

/-- A whole image from address 0 (70_reset_and_hazards.md R172). -/
def Memory.ofImage (image : List Word) : Memory := Memory.ofCellsFrom 0 image

/-- All `MEMORY_SIZE` cells in address order (`dumpMemory`, R157). -/
def Memory.dump (m : Memory) : List Word := (List.range memorySize).map m.cell

/-! ### The memory address validator (R31, R32) -/

/-- `0 <= a and a < MEMORY_SIZE`: a pure comparison, no wraparound, no clamping. (By the sign of `a`: a natural
number is compared with `MEMORY_SIZE`, a negative number fails.) -/
def validAddress : Int → Bool
  | .ofNat n => decide (n < memorySize)
  | .negSucc _ => false

/-- `MemRead(a)` of R31; `none` is `AddressOutOfRange`. -/
def memRead (a : Int) (s : State) : Option Word := if validAddress a then some (s.mem.cell a.toNat) else none

/-- `MemWrite(a, v)` of R31; `none` is `AddressOutOfRange`, and then no cell is written. -/
def memWrite (a : Int) (v : Word) (s : State) : Option State :=
  if validAddress a then some (s.setMem (s.mem.store a.toNat v)) else none

/-- Fetch (R125): the validated read of the cell the pc names. -/
def fetchWord (s : State) : Option Word := memRead s.pc s

/-! ### Errors (R145, R147) -/

/-- The numeric cause codes of R145 (D10; a presentation detail). -/
def RunError.code : RunError → Nat
  | .unknownOpcode => 1
  | .divisionByZero => 2
  | .addressOutOfRange => 3
  | .ioFailure => 4

/-- The code of an outcome: 0 is "no error" (R145). -/
def RunOutcome.code : RunOutcome → Nat
  | .completed => 0
  | .failed e => e.code

/-- Taking a run error (R147): `running <- false`, one report, `execute` returns `Failed(E)`. Nothing is saved, the
pc is not advanced, control goes nowhere. There is no return from it (R151). -/
def raiseRunError (e : RunError) (s : State) : State := (s.report e).endRun (.failed e)

/-! ### Execute stage and advance (stages 4 and 5 of R124) -/

/-- How an execute stage ends. -/
inductive StageResult where
  /-- The stage completed. -/
  | done (s : State)
  /-- The stage is still in progress: `IoRead` has no answer yet (R70(a)). -/
  | waiting (s : State)
  /-- The stage raised a run error in this state. -/
  | raised (e : RunError) (s : State)
  /-- The machine stops. -/
  | stopped (f : Fault)
  deriving DecidableEq, Repr

/-- The constant attribute `affectsControlFlow` of R110: the three jumps write the pc themselves. -/
def affectsControlFlow : Instr → Bool
  | .read _ | .write _ | .load _ | .store _ => false
  | .add _ | .subtract _ | .divide _ | .multiply _ => false
  | .jump _ | .jumpIfNegative _ | .jumpIfZero _ => true
  | .halt _ => !haltAdvancesPc

/-- Stage 5, advance: `pc <- pc + 1`, natural-number addition, no wrap and no check (R129). -/
def advancePc (s : State) : State := s.setPc (s.pc + 1)

/-- Stages 4 and 5 together: advance after a completed stage unless the instruction writes the pc itself; a raised
error abandons the step (R124, R128, R129, R147); a stage still waiting changes nothing more (R70(a), log 10). -/
def finishStage (i : Instr) : StageResult → Host.Outcome State Fault Refusal
  | .done s => .next (if affectsControlFlow i then s else advancePc s)
  | .waiting s => .next s
  | .raised e s => .next (raiseRunError e s)
  | .stopped f => .fault f

end Sys2Proof.Machine
end

