-- ==== Sys2Proof/Machine/Operands.lean ====
section
/-! DEFINITION. The one addressing mode, absolute direct (41_load_store.md R82), and the two ports of the I/O
collaborator (40_io.md R70). -/

namespace Sys2Proof.Machine

/-- `EA = operand` (R82): used as decoded, neither extended nor scaled nor added to anything (30_encoding.md R53). -/
def effectiveAddress (operand : Nat) : Int := operand

/-- The word a memory operand names, through the validator. -/
def readOperand (operand : Nat) (s : State) : Option Word := memRead (effectiveAddress operand) s

/-- A word written to the cell an operand names, through the validator. -/
def writeOperand (operand : Nat) (v : Word) (s : State) : Option State := memWrite (effectiveAddress operand) v s

/-- The target a jump puts in the pc; not validated there (20_memory.md R32(c)). -/
def jumpTarget (operand : Nat) : Nat := operand

/-- How an `IoRead` ends: not answered yet, or answered, the answer taken off the coming ones. -/
inductive IoReadResult where
  /-- No answer yet: the machine waits. -/
  | unanswered
  /-- `Value(v)`, and the state with that input consumed. -/
  | value (v : Word) (s : State)
  /-- `Fail`, which is no input, and the state with that answer taken off the coming ones (log 9). -/
  | fail (s : State)
  deriving DecidableEq, Repr

/-- `IoRead()` (R70): inputs are consumed in order, one for each READ. -/
def ioRead (s : State) : IoReadResult :=
  match s.inputs with
  | [] => .unanswered
  | .value v :: rest => .value v (s.setInputs rest)
  | .fail :: rest => .fail (s.setInputs rest)

/-- The collaborator's answer to the next `IoWrite` (R70, log 4). -/
def nextWriteAnswer (s : State) : WriteAnswer := s.writeAnswers.headD s.writeRest

/-- `IoWrite(v)` (R70): never waits; the answer is consumed; `Ok` appends `v` to the output stream, `Fail` appends
nothing (D15). The flag says whether it succeeded. -/
def ioWrite (v : Word) (s : State) : Bool × State :=
  match nextWriteAnswer s with
  | .ok => (true, (s.setWriteAnswers s.writeAnswers.tail).emit v)
  | .fail => (false, s.setWriteAnswers s.writeAnswers.tail)

/-- The collaborator answers later: one more answer becomes ready (an event of the environment, log 10). -/
def collaboratorOffers (r : ReadAnswer) (s : State) : State := s.setInputs (s.inputs ++ [r])

end Sys2Proof.Machine
end

