-- ==== Sys2Proof/Machine/Flags.lean ====
section
/-! DEFINITION. This machine has no flags and no condition codes (10_state.md R13). What stands in their place: the
two tests a conditional jump makes of the accumulator, and what the ALU does with a result that does not fit
(42_arithmetic.md R91), which sets no flag either. -/

namespace Sys2Proof.Machine

/-- `acc < 0`, signed (43_control.md R112). -/
def accNegative (s : State) : Bool := decide (s.acc.toInt < 0)

/-- `acc = 0` (R113). -/
def accZero (s : State) : Bool := decide (s.acc = 0)

/-- The exact result is a word: it lies in `[MIN_INT, MAX_INT]`. -/
def fitsWord (v : Int) : Bool := decide (minInt ≤ v) && decide (v ≤ maxInt)

/-- What an ALU operation delivers. -/
inductive AluResult where
  /-- The new accumulator. -/
  | value (w : Word)
  /-- A run error; the accumulator is not written (R98). -/
  | error (e : RunError)
  /-- The machine stops (only under a policy `fault`). -/
  | fault (f : Fault)
  deriving DecidableEq, Repr

/-- The exact result narrowed to a word: `wrap` of R7 and R91, or a fault where it does not fit and the policy says
so (U1). -/
def narrow (policy : OverflowPolicy) (exact : Int) : AluResult :=
  match policy with
  | .wrap => .value (wrap exact)
  | .fault => if fitsWord exact then .value (wrap exact) else .fault .overflow

end Sys2Proof.Machine
end

