-- ==== Sys2Proof/Machine/Arithmetic.lean ====
section
/-! DEFINITION. The accumulator ALU: ADD, SUBTRACT, DIVIDE, MULTIPLY (42_arithmetic.md R90 to R98). Operands are read
as signed integers, the exact result is computed, and one rule narrows it (Machine/Flags.lean). -/

namespace Sys2Proof.Machine

/-- The shared datapath of R90: the accumulator is the left operand and the destination, the cell the right operand;
the memory read comes first; the accumulator is written only if nothing was raised. -/
def aluStage (op : Word → Word → AluResult) (a : Nat) (s : State) : StageResult :=
  match readOperand a s with
  | none => .raised .addressOutOfRange s
  | some m =>
    match op s.acc m with
    | .value v => .done (s.setAcc v)
    | .error e => .raised e s
    | .fault f => .stopped f

/-- `acc + m` (R92). -/
def aluAdd (x y : Word) : AluResult := narrow overflowPolicy (x.toInt + y.toInt)

/-- `acc - m` (R93). -/
def aluSubtract (x y : Word) : AluResult := narrow overflowPolicy (x.toInt - y.toInt)

/-- `acc * m` (R94): the low word of the exact signed product. -/
def aluMultiply (x y : Word) : AluResult := narrow overflowPolicy (x.toInt * y.toInt)

/-- `acc / m`, truncating toward zero (R95, R96); a zero divisor is the run error `DivisionByZero`. The one quotient
that does not fit is `MIN_INT / -1`. -/
def aluDivide (x y : Word) : AluResult :=
  if y = 0 then .error .divisionByZero else narrow divMinByMinus1 (x.toInt.tdiv y.toInt)

/-- ADD (R92). -/
def execAdd (a : Nat) (s : State) : Host.Outcome State Fault Refusal := finishStage (.add a) (aluStage aluAdd a s)

/-- SUBTRACT (R93). -/
def execSubtract (a : Nat) (s : State) : Host.Outcome State Fault Refusal :=
  finishStage (.subtract a) (aluStage aluSubtract a s)

/-- DIVIDE (R95). -/
def execDivide (a : Nat) (s : State) : Host.Outcome State Fault Refusal :=
  finishStage (.divide a) (aluStage aluDivide a s)

/-- MULTIPLY (R94). -/
def execMultiply (a : Nat) (s : State) : Host.Outcome State Fault Refusal :=
  finishStage (.multiply a) (aluStage aluMultiply a s)

end Sys2Proof.Machine
end

