-- ==== Sys2Proof/Machine/Control.lean ====
section
/-! DEFINITION. JUMP, JUMP_IF_NEGATIVE, JUMP_IF_ZERO and HALT (43_control.md R110 to R114). -/

namespace Sys2Proof.Machine

/-- The execute stage of a conditional jump (R112, R113): it writes the pc itself, taken or not, so that the pc is
written exactly once in the step. -/
def branchStage (taken : Bool) (a : Nat) (s : State) : StageResult :=
  .done (s.setPc (if taken then jumpTarget a else s.pc + 1))

/-- JUMP (R111). -/
def execJump (a : Nat) (s : State) : Host.Outcome State Fault Refusal :=
  finishStage (.jump a) (.done (s.setPc (jumpTarget a)))

/-- JUMP_IF_NEGATIVE (R112). -/
def execJumpIfNegative (a : Nat) (s : State) : Host.Outcome State Fault Refusal :=
  finishStage (.jumpIfNegative a) (branchStage (accNegative s) a s)

/-- JUMP_IF_ZERO (R113). -/
def execJumpIfZero (a : Nat) (s : State) : Host.Outcome State Fault Refusal :=
  finishStage (.jumpIfZero a) (branchStage (accZero s) a s)

/-- HALT (R114): `running <- false`; the run ends `Completed`, nothing is reported; the operand is ignored (R57). -/
def execHalt (a : Nat) (s : State) : Host.Outcome State Fault Refusal :=
  finishStage (.halt a) (.done (s.endRun .completed))

end Sys2Proof.Machine
end

