-- ==== Sys2Proof/Machine/Io.lean ====
section
/-! DEFINITION. READ and WRITE (40_io.md R71, R72). -/

namespace Sys2Proof.Machine

/-- READ's execute stage (R71): the input first, then the validated write (D13). -/
def readStage (a : Nat) (s : State) : StageResult :=
  match ioRead s with
  | .unanswered => .waiting s
  | .fail s' => .raised .ioFailure s'
  | .value v s' =>
    match writeOperand a v s' with
    | some t => .done t
    | none => .raised .addressOutOfRange s'

/-- READ (R71). -/
def execRead (a : Nat) (s : State) : Host.Outcome State Fault Refusal := finishStage (.read a) (readStage a s)

/-- WRITE's execute stage (R72): the validated read first, then the output. -/
def writeStage (a : Nat) (s : State) : StageResult :=
  match readOperand a s with
  | none => .raised .addressOutOfRange s
  | some v =>
    match ioWrite v s with
    | (true, t) => .done t
    | (false, t) => .raised .ioFailure t

/-- WRITE (R72). -/
def execWrite (a : Nat) (s : State) : Host.Outcome State Fault Refusal := finishStage (.write a) (writeStage a s)

end Sys2Proof.Machine
end

