-- ==== Sys2Proof/Machine/LoadStore.lean ====
section
/-! DEFINITION. LOAD and STORE (41_load_store.md R80, R81). -/

namespace Sys2Proof.Machine

/-- LOAD's execute stage (R80). -/
def loadStage (a : Nat) (s : State) : StageResult :=
  match readOperand a s with
  | some v => .done (s.setAcc v)
  | none => .raised .addressOutOfRange s

/-- LOAD (R80). -/
def execLoad (a : Nat) (s : State) : Host.Outcome State Fault Refusal := finishStage (.load a) (loadStage a s)

/-- STORE's execute stage (R81). -/
def storeStage (a : Nat) (s : State) : StageResult :=
  match writeOperand a s.acc s with
  | some t => .done t
  | none => .raised .addressOutOfRange s

/-- STORE (R81). -/
def execStore (a : Nat) (s : State) : Host.Outcome State Fault Refusal := finishStage (.store a) (storeStage a s)

end Sys2Proof.Machine
end

