-- ==== Sys2Proof/Machine/Dispatch.lean ====
section
/-! DEFINITION. Stage 4 of R124: each instruction's meaning, one arm per constructor. -/

namespace Sys2Proof.Machine

-- The execute stage of the dispatched instruction, together with the advance that follows it.
def exec (i : Instr) (s : State) : Host.Outcome State Fault Refusal :=
  match i with
  | .read a => Sys2Proof.Machine.execRead a s
  | .write a => Sys2Proof.Machine.execWrite a s
  | .load a => Sys2Proof.Machine.execLoad a s
  | .store a => Sys2Proof.Machine.execStore a s
  | .add a => Sys2Proof.Machine.execAdd a s
  | .subtract a => Sys2Proof.Machine.execSubtract a s
  | .divide a => Sys2Proof.Machine.execDivide a s
  | .multiply a => Sys2Proof.Machine.execMultiply a s
  | .jump a => Sys2Proof.Machine.execJump a s
  | .jumpIfNegative a => Sys2Proof.Machine.execJumpIfNegative a s
  | .jumpIfZero a => Sys2Proof.Machine.execJumpIfZero a s
  | .halt a => Sys2Proof.Machine.execHalt a s

end Sys2Proof.Machine
end

