-- ==== Sys2Proof/Machine/HostPort.lean ====
section
/-! DEFINITION. The host's port: the seven operations of 70_reset_and_hazards.md R177, legal only while the machine is
not running (R176), and how a halted engine serves them. -/

namespace Sys2Proof.Machine

/-- `reset()` (R170): the five fields of the Machine State to zero and not running; the collaborator's streams and
the diagnostic channel are not touched. -/
def hostReset (s : State) : State := { s with acc := 0, pc := 0, ir := 0, running := false, mem := [] }

/-- `load(image)` (R172): all cells replaced, registers kept; an image of another length is rejected and nothing
changes (D21). -/
def hostLoad (image : List Word) (s : State) : State :=
  if image.length = memorySize then (s.setMem (Memory.ofImage image)).answerHost .done
  else s.answerHost (.rejected .imageLengthMismatch)

/-- `readMemory(a)` (20_memory.md R44). -/
def hostReadMemory (a : Int) (s : State) : State :=
  match memRead a s with
  | some v => s.answerHost (.word v)
  | none => s.answerHost (.rejected .addressOutOfRange)

/-- `writeMemory(a, v)` (R44). -/
def hostWriteMemory (a : Int) (v : Word) (s : State) : State :=
  match memWrite a v s with
  | some t => t.answerHost .done
  | none => s.answerHost (.rejected .addressOutOfRange)

/-- What each operation does, and its result. `execute` starts the run and returns only when the run ends
(`State.endRun`). -/
def hostPerform (op : HostOp) (s : State) : State :=
  match op with
  | .reset => (hostReset s).answerHost .done
  | .load image => hostLoad image s
  | .execute => s.startRun
  | .readMemory a => hostReadMemory a s
  | .writeMemory a v => hostWriteMemory a v s
  | .dumpMemory => s.answerHost (.cells s.mem.dump)
  | .dumpRegisters => s.answerHost (.registers s.acc s.pc s.ir s.running)

/-- One host operation. During a run it has no move (R176, D9). -/
def hostOperation (op : HostOp) (s : State) : Host.Outcome State Fault Refusal :=
  if s.running then .refused .hostOperationDuringRun else .next (hostPerform op s)

/-- A halted engine takes no step of its own (44_dispatch_and_engine.md R122): it performs the host's next operation,
or stays as it is while the host asks for nothing (log 11). -/
def serveHost (s : State) : Host.Outcome State Fault Refusal :=
  match s.hostOps with
  | [] => .next s
  | op :: rest => hostOperation op (s.setHostOps rest)

end Sys2Proof.Machine
end

