-- ==== Sys2Proof/Machine/Engine.lean ====
section
/-! DEFINITION. The execution engine: one step of a running machine (44_dispatch_and_engine.md R124). -/

namespace Sys2Proof.Machine

/-- Stages 2 to 5 on the word just fetched: `ir <- w`, decode, dispatch (an absent opcode raises `UnknownOpcode`, R127),
execute and advance. -/
def runFetched (w : Word) (s : State) : Host.Outcome State Fault Refusal :=
  match decode w with
  | .ok i => exec i (s.setIr w)
  | .error _ => .next (raiseRunError .unknownOpcode (s.setIr w))

/-- One step of the engine, `step()` of R124. A failed fetch raises `AddressOutOfRange` and leaves `ir` as it was
(R125, D12). -/
def engineStep (s : State) : Host.Outcome State Fault Refusal :=
  match fetchWord s with
  | none => .next (raiseRunError .addressOutOfRange s)
  | some w => runFetched w s

/-- The state in which the engine's very next step fetches `w`: running, the pc at a cell (address 0 if it was at
none), and `w` in that cell. -/
def placeAtFetch (w : Word) (s : State) : State :=
  let p := if s.pc < memorySize then s.pc else 0
  { s with running := true, pc := p, mem := s.mem.store p w }

end Sys2Proof.Machine
end

