-- ==== Sys2Proof/Machine/Step.lean ====
section
/-! DEFINITION. The one step function: the engine's step while Running, the host's next operation while Halted
(44_dispatch_and_engine.md R122, R123). -/

namespace Sys2Proof.Machine

/-- One transition of the machine. -/
def step (s : State) : Host.Outcome State Fault Refusal :=
  if s.running then engineStep s else serveHost s

/-- `s` with the instruction whose bits are `w` where the engine fetches its next one, and the engine running
(log 12: this stands for `load` and `execute`). An instruction is one word, so `nbits` adds nothing. -/
def State.withFetchWord (s : State) (_nbits w : Nat) : State := placeAtFetch (BitVec.ofNat wordBits w) s

end Sys2Proof.Machine
end

