-- ==== Sys2Proof/Safety.lean ====
section
/-! DEFINITION. The terms claims use: the invariant of the reachable states (10_state.md R18), what a run is and when
it is over (44_dispatch_and_engine.md R123, R132, R134), and what can be observed of it. -/

namespace Sys2Proof.Machine

/-- The invariant of R18(a), (b): memory has its canonical form, with cells at `0 .. MEMORY_SIZE-1` only, and
`0 <= pc <= MEMORY_SIZE`. That registers and cells hold words (R18(c)) is in their type. -/
def State.Inv (s : State) : Prop := s.mem.wf = true ∧ s.pc ≤ memorySize

/-- The two states agree in everything a step can depend on: the Machine State and the collaborator's answers still to
come (R131). They may differ in what only leaves the machine (output, reports, results) and in the host's
pending operations. -/
structure State.SameCause (s t : State) : Prop where
  acc : s.acc = t.acc
  pc : s.pc = t.pc
  ir : s.ir = t.ir
  running : s.running = t.running
  mem : s.mem = t.mem
  inputs : s.inputs = t.inputs
  writeAnswers : s.writeAnswers = t.writeAnswers
  writeRest : s.writeRest = t.writeRest

/-- The instruction the next step of a running machine executes, if it reaches its execute stage. -/
def State.nextInstr (s : State) : Option Instr :=
  match fetchWord s with
  | none => none
  | some w =>
    match decode w with
    | .ok i => some i
    | .error _ => none

/-- The program-counter controller of R130: the new pc of a step that executes `i` at address `s.pc` with no run
error. -/
def State.controllerPc (s : State) : Instr → Nat
  | .jump a => a
  | .jumpIfNegative a => if s.acc.toInt < 0 then a else s.pc + 1
  | .jumpIfZero a => if s.acc.toInt = 0 then a else s.pc + 1
  | .read _ | .write _ | .load _ | .store _ => s.pc + 1
  | .add _ | .subtract _ | .divide _ | .multiply _ => s.pc + 1
  | .halt _ => s.pc + 1

/-- `execute`'s loop under fuel (R123, R181: the machine has no step limit, an executor has): the first state in which
`running = false`, or `none` when the fuel ends first or the model gives no next state. -/
def runUntilHalted : Nat → State → Option State
  | 0, s => if s.running then none else some s
  | k + 1, s =>
    if s.running then
      match step s with
      | .next t => runUntilHalted k t
      | .fault _ => none
      | .refused _ => none
    else some s

/-- `k` steps with nothing stopping the machine (`Host.Core.run` where every step has a next state). -/
def Reaches : Nat → State → State → Prop
  | 0, s, t => s = t
  | k + 1, s, t => ∃ u, step s = .next u ∧ Reaches k u t

/-- The answer delivers an input. An input is a word; a `Fail` delivers none (40_io.md R70(c), (e)). -/
def ReadAnswer.isInput : ReadAnswer → Bool
  | .value _ => true
  | .fail => false

/-- How many inputs a list of answers delivers. -/
def inputCount (answers : List ReadAnswer) : Nat := answers.countP ReadAnswer.isInput

/-- The coming step of a running machine consumes an input: it runs a READ whose `IoRead` is answered `Value(v)` (40_io.md
R70, R71). A READ answered `Fail` consumes none: no effect precedes that error (R128). -/
def State.consumesInput (s : State) : Bool :=
  match s.nextInstr with
  | some (.read _) => s.inputs.head?.any ReadAnswer.isInput
  | some _ => false
  | none => false

/-- A run (R123, R134): what the machine does from `start`, the state `execute` put it in, as long as it is running. Between
two transitions the collaborator may answer an outstanding read (log 10).
`Run start arrived n t`: `t` is reached, `arrived` are the answers that came during the run, oldest first, and `n` inputs
were consumed. A state with `running = false` has no successor, so it is the run's end. -/
inductive Run (start : State) : List ReadAnswer → Nat → State → Prop where
  /-- No step yet. -/
  | begun : Run start [] 0 start
  /-- One transition of the machine. -/
  | stepped {arrived : List ReadAnswer} {n : Nat} {s t : State} (h : Run start arrived n s) (hr : s.running = true)
    (hs : step s = .next t) : Run start arrived (if s.consumesInput then n + 1 else n) t
  /-- One answer arrives. -/
  | answered {arrived : List ReadAnswer} {n : Nat} {s : State} (h : Run start arrived n s) (hr : s.running = true)
    (r : ReadAnswer) : Run start (arrived ++ [r]) n (collaboratorOffers r s)

/-- What can be observed of a finished run, and nothing else (R134). All of it is the run's own: what earlier runs
returned, reported or emitted is not in it (log 18). -/
structure Observation where
  /-- What `execute` returned; `none` while it has not returned. -/
  outcome : Option RunOutcome
  /-- The single report, if the outcome is a failure. -/
  report : Option RunError
  /-- Every word the run successfully wrote, in order. -/
  output : List Word
  /-- How many inputs (words) the run consumed. -/
  inputsConsumed : Nat
  /-- What `dumpRegisters` returns at the end. -/
  registers : HostResult
  /-- What `dumpMemory` returns at the end. -/
  memory : HostResult
  deriving DecidableEq, Repr

/-- The outcome in the results that were returned since the run began. -/
def runOutcome : List HostResult → Option RunOutcome
  | .runEnded o :: _ => some o
  | .done :: _ | .word _ :: _ | .cells _ :: _ | .registers _ _ _ _ :: _ | .rejected _ :: _ => none
  | [] => none

/-- The observation of a run that began in `start`, consumed `consumed` inputs and is over in `s`. -/
def State.observe (s start : State) (consumed : Nat) : Observation where
  outcome := runOutcome (s.hostResults.drop start.hostResults.length)
  report := (s.reports.drop start.reports.length).head?
  output := s.output.drop start.output.length
  inputsConsumed := consumed
  registers := .registers s.acc s.pc s.ir s.running
  memory := .cells s.mem.dump

/-- What is observed of the run that `fuel` transitions take from `s` to its end, with no answer arriving on the way. -/
def observeRun (fuel : Nat) (s : State) : Option Observation :=
  (runUntilHalted fuel s).map fun t => t.observe s (inputCount s.inputs - inputCount t.inputs)

end Sys2Proof.Machine
end

