-- ==== Sys2Proof/Certificates/Slice0/Obligations.lean ====
section
/-! DEFINITION. The statements for the provers. Each docstring says which sentences of spec/ it formalises; where a
clause rests on a decision D<n> of 92_eei_decisions.md or on a choice of the model, it says so and names it.
A state is read through `Memory.cell` (one cell) and the fields of State; where a statement says
`t = State-with-updates`, every field not named is unchanged. -/

open Sys2Proof Sys2Proof.Machine

/-! ### Encoding -/

/-- The words of 95_test_vectors.md V1 and of its scenarios decode as listed there; words outside the table are
rejected by name with their opcode. -/
def Obligations.DecodesTheWrittenOutWords : Prop :=
  decode 1007 = .ok (.read 7) ∧ decode 1100 = .ok (.write 0) ∧ decode 2000 = .ok (.load 0) ∧
  decode 2199 = .ok (.store 99) ∧ decode 3008 = .ok (.add 8) ∧ decode 3110 = .ok (.subtract 10) ∧
  decode 3299 = .ok (.divide 99) ∧ decode 3321 = .ok (.multiply 21) ∧ decode 4002 = .ok (.jump 2) ∧
  decode 4107 = .ok (.jumpIfNegative 7) ∧ decode 4210 = .ok (.jumpIfZero 10) ∧ decode 4399 = .ok (.halt 99) ∧
  decode 0 = .error (.unknownOpcode 0) ∧ decode 4400 = .error (.unknownOpcode 44) ∧
  decode 11007 = .error (.unknownOpcode 110) ∧ decode (-1007) = .error (.unknownOpcode (-10))

/-- 44_dispatch_and_engine.md R120: the dispatcher is the table of twelve entries and absent for every other integer; a
miss makes the engine raise `UnknownOpcode`. -/
def Obligations.DispatchIsTheTwelveEntryTable : Prop :=
  (dispatch 10 = some .read ∧ dispatch 11 = some .write ∧ dispatch 20 = some .load ∧ dispatch 21 = some .store ∧
    dispatch 30 = some .add ∧ dispatch 31 = some .subtract ∧ dispatch 32 = some .divide ∧
    dispatch 33 = some .multiply ∧ dispatch 40 = some .jump ∧ dispatch 41 = some .jumpIfNegative ∧
    dispatch 42 = some .jumpIfZero ∧ dispatch 43 = some .halt) ∧
  (∀ c : Int, c ∉ [10, 11, 20, 21, 30, 31, 32, 33, 40, 41, 42, 43] → dispatch c = none) ∧
  (∀ s : State, s.running = true → s.pc < memorySize → dispatch (opcodeField (s.mem.cell s.pc)) = none →
    ∃ t, step s = .next t ∧ t.reports = s.reports ++ [.unknownOpcode] ∧ t.running = false)

/-- The round trip of 30_encoding.md R52, from the instruction: for every table opcode and every operand `0 .. 99` the
decoder reads back exactly the instruction encoded. -/
def Obligations.DecodeOfEncodeIsTheInstruction : Prop :=
  ∀ i : Instr, i.wf = true → decode (encode i) = .ok i

/-- The round trip of 30_encoding.md R52, from the word: a word that decodes re-encodes to itself, and what it decodes
to is well-formed. -/
def Obligations.EncodeOfDecodeIsTheWord : Prop :=
  ∀ (w : Word) (i : Instr), decode w = .ok i → i.wf = true ∧ encode i = w

/-- 30_encoding.md R51 with 00_scope.md R7's `tdiv` and `tmod` (R7 marks the two as standard definitions supplied by
the spec): every word is `opcode*100 + operand`, the operand has at most two digits and the sign of the word. -/
def Obligations.EveryWordIsItsTwoFields : Prop :=
  ∀ w : Word, opcodeField w * 100 + operandField w = w.toInt ∧ -100 < operandField w ∧ operandField w < 100 ∧
    (0 ≤ w.toInt → 0 ≤ operandField w) ∧ (w.toInt ≤ 0 → operandField w ≤ 0)

/-- 30_encoding.md R55: a word is illegal exactly when it is outside the four ranges; fetching one raises
`UnknownOpcode` and halts with none of the instruction's effects. -/
def Obligations.IllegalWordsRaiseUnknownOpcode : Prop :=
  (∀ w : Word, (∃ r, decode w = .error r) ↔
    ¬ ((1000 ≤ w.toInt ∧ w.toInt ≤ 1199) ∨ (2000 ≤ w.toInt ∧ w.toInt ≤ 2199) ∨
       (3000 ≤ w.toInt ∧ w.toInt ≤ 3399) ∨ (4000 ≤ w.toInt ∧ w.toInt ≤ 4399))) ∧
  (∀ (s : State) (r : DecodeReject), s.running = true → s.pc < memorySize → decode (s.mem.cell s.pc) = .error r →
    ∃ t, step s = .next t ∧ t.reports = s.reports ++ [.unknownOpcode] ∧ t.running = false ∧ t.acc = s.acc ∧
      t.pc = s.pc ∧ t.mem = s.mem ∧ t.inputs = s.inputs ∧ t.output = s.output)

/-- 30_encoding.md R56 (a passage the spec marks as derived, and decision D4): reading the fields by floor or by
Euclidean division instead gives the same instruction for every word. -/
def Obligations.DecoderRoundingIsUnobservable : Prop :=
  ∀ (w : Word) (i : Instr),
    (decode w = .ok i ↔
      ∃ mk, dispatch (w.toInt.fdiv 100) = some mk ∧ i = mk (w.toInt.fmod 100).toNat) ∧
    (decode w = .ok i ↔ ∃ mk, dispatch (w.toInt / 100) = some mk ∧ i = mk (w.toInt % 100).toNat)

/-! ### Memory -/

/-- 20_memory.md R31: both validated primitives, in range and out of range; inside a run a failed check is the run
error `AddressOutOfRange` (here: of each of the eight instructions that access memory, of READ once its input is there,
and of the fetch), with the accumulator, the pc and memory unchanged (what a failed fetch leaves in `ir` is decision
D12: see FailedFetchHaltsTheRun); from the host it is an error returned, with the Machine State unchanged. -/
def Obligations.ValidatorGuardsEveryAccess : Prop :=
  (∀ (a : Nat) (v : Word) (s : State), a < memorySize → s.mem.wf = true →
    memRead a s = some (s.mem.cell a) ∧
    ∃ t, memWrite a v s = some t ∧ t = { s with mem := t.mem } ∧ memRead a t = some v ∧
      ∀ b : Nat, b ≠ a → t.mem.cell b = s.mem.cell b) ∧
  (∀ (a : Int) (v : Word) (s : State), ¬ (0 ≤ a ∧ a < memorySize) → memRead a s = none ∧ memWrite a v s = none) ∧
  (∀ (a : Nat) (s : State), memorySize ≤ a →
    (∀ i ∈ [Instr.write a, .load a, .store a, .add a, .subtract a, .multiply a, .divide a],
      ∃ t, exec i s = .next t ∧ t.reports = s.reports ++ [.addressOutOfRange] ∧ t.running = false ∧
        t.mem = s.mem ∧ t.acc = s.acc ∧ t.pc = s.pc ∧ t.ir = s.ir ∧ t.inputs = s.inputs ∧ t.output = s.output) ∧
    (∀ v rest, s.inputs = .value v :: rest →
      ∃ t, exec (.read a) s = .next t ∧ t.reports = s.reports ++ [.addressOutOfRange] ∧ t.running = false ∧
        t.mem = s.mem ∧ t.acc = s.acc ∧ t.pc = s.pc ∧ t.ir = s.ir ∧ t.output = s.output)) ∧
  (∀ s : State, s.running = true → memorySize ≤ s.pc →
    ∃ t, step s = .next t ∧ t.reports = s.reports ++ [.addressOutOfRange] ∧ t.running = false ∧
      t.mem = s.mem ∧ t.acc = s.acc ∧ t.pc = s.pc ∧ t.inputs = s.inputs ∧ t.output = s.output) ∧
  (∀ (a : Int) (v : Word) (s : State), s.running = false → ¬ (0 ≤ a ∧ a < memorySize) →
    (∀ op ∈ [HostOp.readMemory a, .writeMemory a v],
      hostOperation op s = .next { s with hostResults := s.hostResults ++ [.rejected .addressOutOfRange] }))

/-- The model's choice of log 3: in the canonical form equal memories are equal data, so comparing two states compares
what every cell holds. -/
def Obligations.CanonicalMemoriesWithEqualCellsAreEqual : Prop :=
  ∀ m n : Memory, m.wf = true → n.wf = true → (∀ a, a < memorySize → m.cell a = n.cell a) → m = n

/-- 20_memory.md R42: after a STORE, a READ, a host `load` or a host `writeMemory` the next fetch of the cell written
gives the new word; and a STORE or a READ that overwrites its own cell runs as it was fetched. -/
def Obligations.NextFetchSeesEveryWrite : Prop :=
  (∀ (a : Nat) (s : State), a < memorySize → s.mem.wf = true →
    ∃ t, exec (.store a) s = .next t ∧ fetchWord { t with pc := a } = some s.acc) ∧
  (∀ (a : Nat) (s : State) (v : Word) (rest : List ReadAnswer), a < memorySize → s.mem.wf = true →
    s.inputs = .value v :: rest →
    ∃ t, exec (.read a) s = .next t ∧ fetchWord { t with pc := a } = some v) ∧
  (∀ (image : List Word) (s : State) (a : Nat), s.running = false → image.length = memorySize → a < memorySize →
    ∃ t, hostOperation (.load image) s = .next t ∧ fetchWord { t with pc := a } = image[a]?) ∧
  (∀ (a : Nat) (v : Word) (s : State), s.running = false → a < memorySize → s.mem.wf = true →
    ∃ t, hostOperation (.writeMemory a v) s = .next t ∧ fetchWord { t with pc := a } = some v) ∧
  (∀ s : State, s.running = true → s.pc < memorySize → s.mem.wf = true →
    decode (s.mem.cell s.pc) = .ok (.store s.pc) →
    ∃ t, step s = .next t ∧ t.ir = s.mem.cell s.pc ∧ t.pc = s.pc + 1 ∧ t.mem.cell s.pc = s.acc ∧ t.acc = s.acc) ∧
  (∀ (s : State) (v : Word) (rest : List ReadAnswer), s.running = true → s.pc < memorySize → s.mem.wf = true →
    decode (s.mem.cell s.pc) = .ok (.read s.pc) → s.inputs = .value v :: rest →
    ∃ t, step s = .next t ∧ t.ir = s.mem.cell s.pc ∧ t.pc = s.pc + 1 ∧ t.mem.cell s.pc = v ∧ t.acc = s.acc)

/-! ### The instructions: encoding, result and frame -/

/-- READ (40_io.md R71), answered `Value(v)`: `v` into the cell, the answer consumed, the pc advanced, nothing else. -/
def Obligations.ReadStoresTheInput : Prop :=
  ∀ (a : Nat) (s : State), a < memorySize →
    (∀ w : Word, decode w = .ok (.read a) ↔ w.toInt = 1000 + a) ∧
    (∀ (v : Word) (rest : List ReadAnswer), s.inputs = .value v :: rest → s.mem.wf = true →
      ∃ t, exec (.read a) s = .next t ∧ t = { s with mem := t.mem, inputs := rest, pc := s.pc + 1 } ∧
        t.mem.cell a = v ∧ ∀ b : Nat, (b : Int) ≠ effectiveAddress a → t.mem.cell b = s.mem.cell b)

/-- 40_io.md R70(a): while an `IoRead` is not answered the step is in progress and nothing changes, for as many
transitions as one likes (R181: no timeout). That the fetched word is already in `ir` is the model's choice of
log 10. -/
def Obligations.UnansweredReadWaitsForEver : Prop :=
  ∀ (a : Nat) (s : State), s.running = true → s.pc < memorySize → decode (s.mem.cell s.pc) = .ok (.read a) →
    s.inputs = [] → ∀ k, Reaches (k + 1) s { s with ir := s.mem.cell s.pc }

/-- 40_io.md R70(a), U10: the hold is lifted only by the answer. A READ that has waited and is then answered does
exactly what it does when the answer is there at once (the arrival of an answer is the model's event of log 10). -/
def Obligations.LateAnswerResumesTheRead : Prop :=
  ∀ (a : Nat) (s : State) (r : ReadAnswer), s.running = true → s.pc < memorySize →
    decode (s.mem.cell s.pc) = .ok (.read a) → s.inputs = [] →
    ∃ t, step s = .next t ∧ step (collaboratorOffers r t) = step (collaboratorOffers r s)

/-- WRITE (40_io.md R72), answered `Ok`: the cell's word appended to the output stream, the write answer consumed (log
4), the pc advanced, nothing else. -/
def Obligations.WriteEmitsTheCell : Prop :=
  ∀ (a : Nat) (s : State), a < memorySize →
    (∀ w : Word, decode w = .ok (.write a) ↔ w.toInt = 1100 + a) ∧
    (s.writeAnswers.headD s.writeRest = .ok →
      exec (.write a) s = .next
        { s with output := s.output ++ [s.mem.cell a], writeAnswers := s.writeAnswers.tail, pc := s.pc + 1 })

/-- 60_exceptions.md R144 with 40_io.md R74 (decisions D11, D15): a READ or a WRITE the collaborator fails raises
`IOFailure`: nothing stored, nothing emitted, `acc`, `pc` and memory unchanged, one report, the run over. That the `Fail`
answer is taken off the coming ones (`inputs := rest`, the tail of `writeAnswers`) is no rule of the spec but the model's
choice: log 9 for the answer, log 4 for the scripted write answers. -/
def Obligations.FailedIoRaisesIoFailure : Prop :=
  ∀ (a : Nat) (s : State),
    (∀ rest, s.inputs = .fail :: rest →
      exec (.read a) s = .next { s with
        inputs := rest, running := false, reports := s.reports ++ [.ioFailure]
        hostResults := s.hostResults ++ [.runEnded (.failed .ioFailure)] }) ∧
    (a < memorySize → s.writeAnswers.headD s.writeRest = .fail →
      exec (.write a) s = .next { s with
        writeAnswers := s.writeAnswers.tail, running := false, reports := s.reports ++ [.ioFailure]
        hostResults := s.hostResults ++ [.runEnded (.failed .ioFailure)] })

/-- LOAD (41_load_store.md R80), whole: its words, its effect, and its error. -/
def Obligations.LoadCopiesTheCell : Prop :=
  ∀ (a : Nat) (s : State),
    (a < memorySize →
      (∀ w : Word, decode w = .ok (.load a) ↔ w.toInt = 2000 + a) ∧
      exec (.load a) s = .next { s with acc := s.mem.cell a, pc := s.pc + 1 }) ∧
    (memorySize ≤ a → ∃ t, exec (.load a) s = .next t ∧ t.reports = s.reports ++ [.addressOutOfRange] ∧
      t.acc = s.acc ∧ t.pc = s.pc ∧ t.mem = s.mem ∧ t.running = false)

/-- STORE (41_load_store.md R81), whole: its words, its effect (the accumulator in the cell, every other cell and field
but the pc unchanged), and its error. -/
def Obligations.StoreWritesTheAccumulator : Prop :=
  ∀ (a : Nat) (s : State),
    (a < memorySize → s.mem.wf = true →
      (∀ w : Word, decode w = .ok (.store a) ↔ w.toInt = 2100 + a) ∧
      ∃ t, exec (.store a) s = .next t ∧ t = { s with mem := t.mem, pc := s.pc + 1 } ∧ t.mem.cell a = s.acc ∧
        ∀ b : Nat, (b : Int) ≠ effectiveAddress a → t.mem.cell b = s.mem.cell b) ∧
    (memorySize ≤ a → ∃ t, exec (.store a) s = .next t ∧ t.reports = s.reports ++ [.addressOutOfRange] ∧
      t.acc = s.acc ∧ t.pc = s.pc ∧ t.mem = s.mem ∧ t.running = false)

/-- ADD (42_arithmetic.md R92): the sum reduced by `wrap` (00_scope.md R7). Width and wrap are decisions D1 and D2. -/
def Obligations.AddWrapsIntoTheAccumulator : Prop :=
  ∀ (a : Nat) (s : State), a < memorySize →
    (∀ w : Word, decode w = .ok (.add a) ↔ w.toInt = 3000 + a) ∧
    ∃ v : Word, exec (.add a) s = .next { s with acc := v, pc := s.pc + 1 } ∧
      v.toInt = (s.acc.toInt + (s.mem.cell a).toInt + 2147483648) % 4294967296 - 2147483648

/-- SUBTRACT (42_arithmetic.md R93): `acc - cell`, in that order, reduced by `wrap` (D1, D2). -/
def Obligations.SubtractWrapsIntoTheAccumulator : Prop :=
  ∀ (a : Nat) (s : State), a < memorySize →
    (∀ w : Word, decode w = .ok (.subtract a) ↔ w.toInt = 3100 + a) ∧
    ∃ v : Word, exec (.subtract a) s = .next { s with acc := v, pc := s.pc + 1 } ∧
      v.toInt = (s.acc.toInt - (s.mem.cell a).toInt + 2147483648) % 4294967296 - 2147483648

/-- MULTIPLY (42_arithmetic.md R94; opcode 33): the exact signed product reduced by `wrap` (D1, D2). -/
def Obligations.MultiplyWrapsIntoTheAccumulator : Prop :=
  ∀ (a : Nat) (s : State), a < memorySize →
    (∀ w : Word, decode w = .ok (.multiply a) ↔ w.toInt = 3300 + a) ∧
    ∃ v : Word, exec (.multiply a) s = .next { s with acc := v, pc := s.pc + 1 } ∧
      v.toInt = (s.acc.toInt * (s.mem.cell a).toInt + 2147483648) % 4294967296 - 2147483648

/-- DIVIDE (42_arithmetic.md R95; opcode 32) by a divisor that is not 0: the quotient truncated toward zero; `MIN_INT /
-1` gives `MIN_INT` (decision D3). -/
def Obligations.DivideTruncatesIntoTheAccumulator : Prop :=
  ∀ (a : Nat) (s : State), a < memorySize →
    (∀ w : Word, decode w = .ok (.divide a) ↔ w.toInt = 3200 + a) ∧
    (s.mem.cell a ≠ 0 → ∃ v : Word, exec (.divide a) s = .next { s with acc := v, pc := s.pc + 1 } ∧
      (¬ (s.acc.toInt = minInt ∧ (s.mem.cell a).toInt = -1) →
        v.toInt = s.acc.toInt.tdiv (s.mem.cell a).toInt) ∧
      (s.acc.toInt = minInt ∧ (s.mem.cell a).toInt = -1 → v.toInt = minInt))

/-- 42_arithmetic.md R96 with the definition of `tdiv` of 00_scope.md R7 (a passage the spec supplies itself): the
remainder left by DIVIDE is smaller than the divisor and has the sign of the dividend, at every sign combination
(the one quotient that does not fit apart, D3). -/
def Obligations.QuotientLeavesATruncatedRemainder : Prop :=
  ∀ (a : Nat) (s t : State), a < memorySize → s.mem.cell a ≠ 0 →
    ¬ (s.acc.toInt = minInt ∧ (s.mem.cell a).toInt = -1) → exec (.divide a) s = .next t →
    ∃ r : Int, s.acc.toInt = t.acc.toInt * (s.mem.cell a).toInt + r ∧ |r| < |(s.mem.cell a).toInt| ∧
      (r = 0 ∨ r.sign = s.acc.toInt.sign)

/-- 60_exceptions.md R142: a step that runs DIVIDE with 0 in the divisor cell raises `DivisionByZero`, and the state
afterwards; and no other step raises it. -/
def Obligations.ZeroDivisorRaisesDivisionByZero : Prop :=
  ∀ s : State, s.running = true →
    ∃ t, step s = .next t ∧
      (∀ a, s.nextInstr = some (.divide a) → s.mem.cell a = 0 →
        t.reports = s.reports ++ [.divisionByZero] ∧ t.ir = s.mem.cell s.pc ∧ t.pc = s.pc ∧ t.acc = s.acc ∧
        t.mem = s.mem ∧ t.running = false) ∧
      (t.reports = s.reports ++ [.divisionByZero] →
        ∃ a, s.nextInstr = some (.divide a) ∧ s.mem.cell a = 0)

/-- JUMP (43_control.md R111), whole: its words, the pc written and nothing else, the target checked by the next fetch
only. -/
def Obligations.JumpWritesThePc : Prop :=
  ∀ (a : Nat) (s : State),
    (a < memorySize → ∀ w : Word, decode w = .ok (.jump a) ↔ w.toInt = 4000 + a) ∧
    exec (.jump a) s = .next { s with pc := a } ∧
    (a < memorySize → fetchWord { s with pc := a } = some (s.mem.cell a)) ∧
    (memorySize ≤ a → fetchWord { s with pc := a } = none)

/-- JUMP_IF_NEGATIVE (43_control.md R112), whole: its words; taken exactly when the accumulator is negative as a signed
word; not taken, it advances the pc once. -/
def Obligations.JumpIfNegativeTestsTheSign : Prop :=
  ∀ (a : Nat) (s : State),
    (a < memorySize → ∀ w : Word, decode w = .ok (.jumpIfNegative a) ↔ w.toInt = 4100 + a) ∧
    (s.acc.toInt < 0 → exec (.jumpIfNegative a) s = .next { s with pc := a }) ∧
    (0 ≤ s.acc.toInt → exec (.jumpIfNegative a) s = .next { s with pc := s.pc + 1 })

/-- JUMP_IF_ZERO (43_control.md R113), whole: its words; taken exactly when the accumulator is 0; not taken, it
advances the pc once. -/
def Obligations.JumpIfZeroTestsForZero : Prop :=
  ∀ (a : Nat) (s : State),
    (a < memorySize → ∀ w : Word, decode w = .ok (.jumpIfZero a) ↔ w.toInt = 4200 + a) ∧
    (s.acc.toInt = 0 → exec (.jumpIfZero a) s = .next { s with pc := a }) ∧
    (s.acc.toInt ≠ 0 → exec (.jumpIfZero a) s = .next { s with pc := s.pc + 1 })

/-- HALT (43_control.md R114): `running <- false`, the pc advanced (decision D5), `execute` returns `Completed` and
nothing is reported (D11); the operand is ignored. -/
def Obligations.HaltEndsTheRunCompleted : Prop :=
  ∀ (a : Nat) (s : State),
    (a < memorySize → ∀ w : Word, decode w = .ok (.halt a) ↔ w.toInt = 4300 + a) ∧
    exec (.halt a) s = .next { s with
      running := false, pc := s.pc + 1
      hostResults := s.hostResults ++ [.runEnded .completed] }

/-- 42_arithmetic.md R98: an arithmetic instruction either completes (accumulator written, pc advanced) or raises an
error with no field of the Machine State changed but `running`. -/
def Obligations.ArithmeticErrorsAreAtomic : Prop :=
  ∀ (a : Nat) (s : State), ∀ i ∈ [Instr.add a, .subtract a, .multiply a, .divide a],
    ∃ t, exec i s = .next t ∧
      ((∃ v : Word, t = { s with acc := v, pc := s.pc + 1 }) ∨
       (∃ e : RunError, t.reports = s.reports ++ [e] ∧ t.running = false ∧ t.acc = s.acc ∧ t.pc = s.pc ∧
         t.ir = s.ir ∧ t.mem = s.mem))

/-- The frame of LOAD, ADD, SUBTRACT, MULTIPLY and DIVIDE (R80, R92 to R95), with or without an error: every cell, `ir`,
both streams and the host's requests unchanged; the accumulator too if an error is reported. (The write answers and the
host's requests are the model's own fields, logs 4 and 5.) -/
def Obligations.AccumulatorInstructionsFrame : Prop :=
  ∀ (a : Nat) (s t : State), ∀ i ∈ [Instr.load a, .add a, .subtract a, .multiply a, .divide a],
    exec i s = .next t →
      (∀ b, t.mem.cell b = s.mem.cell b) ∧ t.ir = s.ir ∧ t.inputs = s.inputs ∧ t.output = s.output ∧
      t.writeAnswers = s.writeAnswers ∧ t.writeRest = s.writeRest ∧ t.hostOps = s.hostOps ∧
      (t.reports = s.reports → t.running = s.running ∧ t.hostResults = s.hostResults) ∧
      (t.reports ≠ s.reports → t.acc = s.acc ∧ t.pc = s.pc)

/-- The frame of READ and STORE (R71, R81), with or without an error: every cell but the one at the effective address,
`acc`, `ir`, the output stream, the write answers and the host's requests unchanged; STORE takes no input. (The write
answers and the host's requests are the model's own fields, logs 4 and 5.) -/
def Obligations.StoringInstructionsFrame : Prop :=
  ∀ (a : Nat) (s t : State), ∀ i ∈ [Instr.read a, .store a], exec i s = .next t →
    (∀ b : Nat, (b : Int) ≠ effectiveAddress a → t.mem.cell b = s.mem.cell b) ∧ t.acc = s.acc ∧ t.ir = s.ir ∧
    t.output = s.output ∧ t.writeAnswers = s.writeAnswers ∧ t.writeRest = s.writeRest ∧ t.hostOps = s.hostOps ∧
    (i = .store a → t.inputs = s.inputs) ∧
    (t.reports = s.reports → t.running = s.running ∧ t.hostResults = s.hostResults)

/-- The frame of WRITE, the three jumps and HALT (R72, R111 to R114), with or without an error: every cell, `acc`, `ir`,
the inputs and the host's requests unchanged; all but WRITE leave the output stream and the write answers, the
jumps also `running`, the reports and the results. (The write answers and the host's requests are the model's own fields,
logs 4 and 5.) -/
def Obligations.OutputAndControlFrame : Prop :=
  ∀ (a : Nat) (s t : State),
    (∀ i ∈ [Instr.write a, .jump a, .jumpIfNegative a, .jumpIfZero a, .halt a], exec i s = .next t →
      (∀ b, t.mem.cell b = s.mem.cell b) ∧ t.acc = s.acc ∧ t.ir = s.ir ∧ t.inputs = s.inputs ∧
      t.writeRest = s.writeRest ∧ t.hostOps = s.hostOps ∧
      (i ≠ .write a → t.output = s.output ∧ t.writeAnswers = s.writeAnswers ∧ t.reports = s.reports)) ∧
    (∀ i ∈ [Instr.jump a, .jumpIfNegative a, .jumpIfZero a], exec i s = .next t →
      t.running = s.running ∧ t.hostResults = s.hostResults)

/-! ### The engine -/

/-- 44_dispatch_and_engine.md R124: when the word at the pc decodes to an instruction, the step of a running machine is
`ir <- word` and then that instruction's execute stage and advance (`exec`). -/
def Obligations.StepRunsTheDecodedInstruction : Prop :=
  ∀ (s : State) (i : Instr), s.running = true → s.pc < memorySize → decode (s.mem.cell s.pc) = .ok i →
    step s = exec i { s with ir := s.mem.cell s.pc }

/-- 44_dispatch_and_engine.md R127 and 60_exceptions.md R141: the state after an absent opcode. -/
def Obligations.UnknownOpcodeLeavesTheRestUntouched : Prop :=
  ∀ s : State, s.running = true → s.pc < memorySize → dispatch (opcodeField (s.mem.cell s.pc)) = none →
    ∃ t, step s = .next t ∧ t.reports = s.reports ++ [.unknownOpcode] ∧ t.ir = s.mem.cell s.pc ∧ t.pc = s.pc ∧
      t.acc = s.acc ∧ t.mem = s.mem ∧ t.inputs = s.inputs ∧ t.writeAnswers = s.writeAnswers ∧
      t.output = s.output ∧ t.running = false

/-- 44_dispatch_and_engine.md R125 (decisions D11, D12): a fetch at a pc outside memory raises `AddressOutOfRange` and
changes nothing else, `ir` included. -/
def Obligations.FailedFetchHaltsTheRun : Prop :=
  ∀ s : State, s.running = true → memorySize ≤ s.pc →
    step s = .next { s with
      running := false, reports := s.reports ++ [.addressOutOfRange]
      hostResults := s.hostResults ++ [.runEnded (.failed .addressOutOfRange)] }

/-- 10_state.md R14 (with decision D12): a step of a running machine leaves in `ir` the word it fetched, or what was
there if the fetch failed; while halted only the host's `reset` changes `ir`, to 0. -/
def Obligations.IrHoldsTheWordLastFetched : Prop :=
  ∀ s t : State, step s = .next t →
    (s.running = true → s.pc < memorySize → t.ir = s.mem.cell s.pc) ∧
    (s.running = true → memorySize ≤ s.pc → t.ir = s.ir) ∧
    (s.running = false → t.ir = s.ir ∨ (t.ir = 0 ∧ ∃ rest, s.hostOps = .reset :: rest))

/-- 44_dispatch_and_engine.md R130, R129 (HALT's row is decision D5): the new pc of every step: the controller's table
when the instruction completes, the old pc when an error is reported, and the old pc while a READ waits (a waiting READ as
a transition of its own is the model's choice of log 10). -/
def Obligations.PcFollowsTheControllerTable : Prop :=
  ∀ s t : State, s.running = true → step s = .next t →
    (t.reports ≠ s.reports → t.pc = s.pc) ∧
    (∀ i, s.nextInstr = some i → t.reports = s.reports → (s.inputs = [] → ∀ a, i ≠ .read a) →
      t.pc = s.controllerPc i) ∧
    (∀ a, s.nextInstr = some (.read a) → s.inputs = [] → t.pc = s.pc)

/-- 60_exceptions.md R148 (which the spec marks as derived; D24): when a step reports an error, nothing of the Machine
State has changed but `ir` (the word fetched) and `running`, and nothing is emitted. -/
def Obligations.RunErrorsArePrecise : Prop :=
  ∀ s t : State, s.running = true → step s = .next t → t.reports ≠ s.reports →
    ∃ e, t.reports = s.reports ++ [e] ∧ t.running = false ∧ t.acc = s.acc ∧ t.pc = s.pc ∧ t.mem = s.mem ∧
      t.output = s.output ∧ t.hostResults = s.hostResults ++ [.runEnded (.failed e)] ∧
      (s.pc < memorySize → t.ir = s.mem.cell s.pc) ∧ (memorySize ≤ s.pc → t.ir = s.ir)

/-- 60_exceptions.md R140, R149, R160 and 20_memory.md R32 (the reachability column is marked derived there): each run
error is reported by a step exactly in its own case; in particular `AddressOutOfRange` only by a fetch. (Which answer the
coming write gets is said by the model's own fields of log 4.) -/
def Obligations.EachRunErrorHasItsOneCause : Prop :=
  ∀ s t : State, s.running = true → step s = .next t →
    (t.reports = s.reports ++ [.addressOutOfRange] ↔ memorySize ≤ s.pc) ∧
    (t.reports = s.reports ++ [.unknownOpcode] ↔
      s.pc < memorySize ∧ dispatch (opcodeField (s.mem.cell s.pc)) = none) ∧
    (t.reports = s.reports ++ [.divisionByZero] ↔ ∃ a, s.nextInstr = some (.divide a) ∧ s.mem.cell a = 0) ∧
    (t.reports = s.reports ++ [.ioFailure] ↔
      (∃ a rest, s.nextInstr = some (.read a) ∧ s.inputs = .fail :: rest) ∨
      (∃ a, s.nextInstr = some (.write a) ∧ s.writeAnswers.headD s.writeRest = .fail))

/-- The model never stops: from every state one transition gives a next state (R58, R122, R131: every word, every
error and every request of the host has its effect; an idle halted machine stays as it is, log 11). -/
def Obligations.EveryStepHasANextState : Prop :=
  ∀ s : State, ∃ t, step s = .next t

/-- 10_state.md R18(a), (b): the invariant (canonical memory of cells `0 .. 99`, pc in `0 .. 100`) is kept by every
transition from every state that has it. -/
def Obligations.InvariantKeptByEveryStep : Prop :=
  ∀ s t : State, s.Inv → step s = .next t → t.Inv

/-- The reset state has the invariant. -/
def Obligations.InvariantHoldsAtReset : Prop :=
  State.reset.Inv

/-- Hence the invariant holds in every state any number of transitions away (10_state.md R18: "in every reachable
state"). -/
def Obligations.InvariantHoldsAlongEveryRun : Prop :=
  ∀ (k : Nat) (s t : State), s.Inv → Reaches k s t → t.Inv

/-- 44_dispatch_and_engine.md R131: the Machine State and the collaborator's responses fix the outcome of a step: two
machines that agree in these step to states that agree in these, having emitted, reported and returned the same. The
collaborator's answers as data are log 4 (the scripted write answers are the model's own), what `execute` returns is
decision D11, and the lists of results and of requests, the latter untouched by the step, are the model's choice of log 5. -/
def Obligations.StepDependsOnlyOnStateAndAnswers : Prop :=
  ∀ s₁ s₂ : State, s₁.SameCause s₂ → s₁.running = true →
    ∃ t₁ t₂, step s₁ = .next t₁ ∧ step s₂ = .next t₂ ∧ t₁.SameCause t₂ ∧
      (∃ out, t₁.output = s₁.output ++ out ∧ t₂.output = s₂.output ++ out) ∧
      (∃ reps, t₁.reports = s₁.reports ++ reps ∧ t₂.reports = s₂.reports ++ reps) ∧
      (∃ res, t₁.hostResults = s₁.hostResults ++ res ∧ t₂.hostResults = s₂.hostResults ++ res) ∧
      t₁.hostOps = s₁.hostOps ∧ t₂.hostOps = s₂.hostOps

/-- 20_memory.md R37, R39 and 40_io.md R70(b): a step takes at most the next input, and only a READ takes one; it
appends at most one word to the output, and only a WRITE appends, the word of its cell. -/
def Obligations.OnlyReadTakesInputOnlyWriteEmits : Prop :=
  ∀ s t : State, s.running = true → step s = .next t →
    (t.inputs = s.inputs ∨ (t.inputs = s.inputs.tail ∧ ∃ a, s.nextInstr = some (.read a))) ∧
    (t.output = s.output ∨
      ∃ a, s.nextInstr = some (.write a) ∧ t.output = s.output ++ [s.mem.cell a])

/-- 10_state.md R15, R18(d) and 44_dispatch_and_engine.md R122: Running to Halted only by HALT or by a run error (with
the report and the result of D11), Halted to Running only by the host's `execute`. -/
def Obligations.RunningChangesOnlyByHaltErrorOrExecute : Prop :=
  ∀ s t : State, step s = .next t →
    (s.running = true → t.running = false →
      (∃ a, s.nextInstr = some (.halt a) ∧ t.reports = s.reports ∧
        t.hostResults = s.hostResults ++ [.runEnded .completed]) ∨
      (∃ e, t.reports = s.reports ++ [e] ∧ t.hostResults = s.hostResults ++ [.runEnded (.failed e)])) ∧
    (s.running = true → t.running = true → t.reports = s.reports ∧ t.hostResults = s.hostResults) ∧
    (s.running = false → t.running = true → ∃ rest, s.hostOps = .execute :: rest)

/-- 44_dispatch_and_engine.md R123, R132, R134 and 60_exceptions.md R147, R151 (D11): a run that ends has returned
exactly one outcome and made exactly one report if it failed, none if it completed, however long it was. That the host's
requests stay pending meanwhile, and the lists themselves, are the model's choice of log 5. -/
def Obligations.EveryEndedRunHasOneOutcome : Prop :=
  ∀ (fuel : Nat) (s t : State), s.running = true → runUntilHalted fuel s = some t →
    t.running = false ∧ t.hostOps = s.hostOps ∧
    ((t.reports = s.reports ∧ t.hostResults = s.hostResults ++ [.runEnded .completed]) ∨
     (∃ e, t.reports = s.reports ++ [e] ∧ t.hostResults = s.hostResults ++ [.runEnded (.failed e)]))

/-- 43_control.md R111 and 70_reset_and_hazards.md R181: a JUMP to its own address loops for ever, changing no state but
`ir`; there is no step limit. -/
def Obligations.JumpToItselfNeverEnds : Prop :=
  ∀ s : State, s.running = true → s.pc < memorySize → decode (s.mem.cell s.pc) = .ok (.jump s.pc) →
    (∀ k, Reaches (k + 1) s { s with ir := s.mem.cell s.pc }) ∧ (∀ fuel, runUntilHalted fuel s = none)

/-- 70_reset_and_hazards.md R180: a step at address 99 that leaves the machine running with the pc at 100 is followed
by a failed fetch; and every instruction at 99 that completes in Running and is no taken jump (and no waiting READ)
leaves the pc at 100. -/
def Obligations.RunningOffTheEndFails : Prop :=
  ∀ (s t : State) (i : Instr), s.running = true → s.pc = 99 → s.nextInstr = some i → step s = .next t →
    t.running = true → s.controllerPc i = 100 → (s.inputs = [] → ∀ a, i ≠ .read a) →
    t.pc = 100 ∧ ∃ u, step t = .next u ∧ u.reports = t.reports ++ [.addressOutOfRange] ∧ u.running = false ∧
      u.pc = 100

/-- 44_dispatch_and_engine.md R134 (decision D11; the streams read from where the run began, log 18): all that is observed
of a finished run, whenever its inputs came: its outcome, the one report exactly if it failed, the words it appended to
the output stream, how many inputs it consumed (words only, R70(c): the oldest of those ready and arrived, in order, none
dropped, 40_io.md R70(b); the answers as data are logs 4 and 10; a `Fail` is no input, and that it leaves the list when it
ends the run is the model's choice of log 9), and what the two dumps then return (their list of results is log 5). -/
def Obligations.FinishedRunIsObservedAsStated : Prop :=
  ∀ (s t : State) (arrived : List ReadAnswer) (n : Nat), s.running = true → Run s arrived n t → t.running = false →
    (((t.observe s n).outcome = some .completed ∧ (t.observe s n).report = none) ∨
      ∃ e, (t.observe s n).outcome = some (.failed e) ∧ (t.observe s n).report = some e) ∧
    t.reports = s.reports ++ (t.observe s n).report.toList ∧
    t.output = s.output ++ (t.observe s n).output ∧
    (∃ values : List Word, values.length = (t.observe s n).inputsConsumed ∧
      (s.inputs ++ arrived = values.map .value ++ t.inputs ∨
        ((t.observe s n).outcome = some (.failed .ioFailure) ∧
          s.inputs ++ arrived = values.map .value ++ .fail :: t.inputs))) ∧
    hostOperation .dumpRegisters t = .next { t with hostResults := t.hostResults ++ [(t.observe s n).registers] } ∧
    hostOperation .dumpMemory t = .next { t with hostResults := t.hostResults ++ [(t.observe s n).memory] }

/-- The executor under fuel (R181, D23) and the runs of R123, R134 agree: where the executor answers a state, that state
ends a run in which no answer arrived, with as many inputs (words) consumed as have left the list; and every such run that
ends is found with fuel enough. -/
def Obligations.ExecutorFindsExactlyTheFinishedRuns : Prop :=
  ∀ s t : State,
    (∀ fuel, runUntilHalted fuel s = some t →
      t.running = false ∧ Run s [] (inputCount s.inputs - inputCount t.inputs) t) ∧
    (∀ n, Run s [] n t → t.running = false → ∃ fuel, runUntilHalted fuel s = some t)

/-- 44_dispatch_and_engine.md R131, R134 ("Nothing else is observable"; decision D11, logs 4, 5 and 18): what is observed of
a run depends on the Machine State it began in and on the collaborator's answers alone, not on what earlier runs
emitted, reported or returned, nor on what the host will ask next. -/
def Obligations.ObservationDependsOnlyOnStateAndAnswers : Prop :=
  ∀ (fuel : Nat) (s₁ s₂ : State), s₁.SameCause s₂ → s₁.running = true → observeRun fuel s₁ = observeRun fuel s₂

/-! ### Reset and the host -/

/-- 10_state.md R21: the machine as created: every field of the Machine State zero, not running, every cell 0. (The
environment's fields are at the values of logs 4 and 5, which nothing here claims.) -/
def Obligations.ResetStateIsAllZero : Prop :=
  State.reset.acc = 0 ∧ State.reset.pc = 0 ∧ State.reset.ir = 0 ∧ State.reset.running = false ∧
    ∀ a, State.reset.mem.cell a = 0

/-- 70_reset_and_hazards.md R170, R171: `reset()` always succeeds, zeroes the five fields, leaves the collaborator's
streams and the diagnostic channel alone, and gives the Machine State a new machine has. -/
def Obligations.HostResetGivesTheStateAtCreation : Prop :=
  ∀ s : State, s.running = false →
    ∃ t, hostOperation .reset s = .next t ∧ t.acc = 0 ∧ t.pc = 0 ∧ t.ir = 0 ∧ t.running = false ∧
      (∀ a, t.mem.cell a = 0) ∧ t.inputs = s.inputs ∧ t.writeAnswers = s.writeAnswers ∧
      t.writeRest = s.writeRest ∧ t.output = s.output ∧ t.reports = s.reports ∧
      t.acc = State.reset.acc ∧ t.pc = State.reset.pc ∧ t.ir = State.reset.ir ∧
      t.running = State.reset.running ∧ t.mem = State.reset.mem

/-- 70_reset_and_hazards.md R172 (decisions D21, D27): `load` of a full image replaces every cell and no register; of
any other length it is rejected and nothing changes. -/
def Obligations.HostLoadReplacesMemoryWholesale : Prop :=
  ∀ (image : List Word) (s : State), s.running = false →
    (image.length = memorySize → ∃ t, hostOperation (.load image) s = .next t ∧
      t = { s with mem := t.mem, hostResults := s.hostResults ++ [.done] } ∧
      ∀ a, a < memorySize → image[a]? = some (t.mem.cell a)) ∧
    (image.length ≠ memorySize → hostOperation (.load image) s = .next
      { s with hostResults := s.hostResults ++ [.rejected .imageLengthMismatch] })

/-- 70_reset_and_hazards.md R173, R182 (decision D8): `execute` sets the pc to 0 and the run flag, and keeps the
accumulator, `ir` and memory, whatever an earlier run left there. -/
def Obligations.HostExecuteStartsAtAddressZero : Prop :=
  ∀ s : State, s.running = false → hostOperation .execute s = .next { s with pc := 0, running := true }

/-- 20_memory.md R44 (decisions D21, D22): the host's `readMemory` and `writeMemory` at a valid address. -/
def Obligations.HostReadsAndWritesOneCell : Prop :=
  ∀ (a : Nat) (v : Word) (s : State), s.running = false → a < memorySize →
    hostOperation (.readMemory a) s = .next { s with hostResults := s.hostResults ++ [.word (s.mem.cell a)] } ∧
    (s.mem.wf = true → ∃ t, hostOperation (.writeMemory a v) s = .next t ∧
      t = { s with mem := t.mem, hostResults := s.hostResults ++ [.done] } ∧ t.mem.cell a = v ∧
      ∀ b : Nat, b ≠ a → t.mem.cell b = s.mem.cell b)

/-- 60_exceptions.md R157 (decision D20): the dumps return the four registers and the 100 cells in address order, and
change nothing of the machine. -/
def Obligations.HostDumpsAreReadOnlySnapshots : Prop :=
  ∀ s : State, s.running = false →
    hostOperation .dumpRegisters s = .next
      { s with hostResults := s.hostResults ++ [.registers s.acc s.pc s.ir s.running] } ∧
    ∃ cells : List Word, cells.length = memorySize ∧ (∀ a, a < memorySize → cells[a]? = some (s.mem.cell a)) ∧
      hostOperation .dumpMemory s = .next { s with hostResults := s.hostResults ++ [.cells cells] }

/-- 70_reset_and_hazards.md R176 (decision D9): a host operation during a run has no move: the model refuses it, and the
running machine's own step leaves the host's requests pending. -/
def Obligations.HostHasNoMoveDuringARun : Prop :=
  ∀ s : State, s.running = true →
    (∀ op, hostOperation op s = .refused .hostOperationDuringRun) ∧
    (∀ t, step s = .next t → t.hostOps = s.hostOps)

/-- 44_dispatch_and_engine.md R122: a halted engine takes no step of its own: it performs the host's next operation, and
without one it stays as it is (the list of requests and the idle transition are the model's choices of logs 5, 11). -/
def Obligations.HaltedStepServesTheHost : Prop :=
  ∀ s : State, s.running = false →
    (s.hostOps = [] → step s = .next s) ∧
    (∀ op rest, s.hostOps = op :: rest → step s = hostOperation op { s with hostOps := rest })
end

