-- ==== Sys2Proof/Laws/Decode.lean ====
section
/-! SUPPORT. The decimal split, the dispatch table and the encoder: one lemma for what each can do. -/

namespace Sys2Proof

/-- One row of a table written as a chain of ifs. -/
theorem ite_some_eq_some {α : Type} {p : Prop} [Decidable p] {x y : α} {rest : Option α} :
    (if p then some x else rest) = some y → (p ∧ y = x) ∨ rest = some y := by
  intro h
  by_cases hp : p
  · rw [if_pos hp] at h
    exact .inl ⟨hp, (Option.some.inj h).symm⟩
  · rw [if_neg hp] at h
    exact .inr h

/-- The dispatcher answers exactly the table of 44_dispatch_and_engine.md R120, said as one disjunction. -/
theorem dispatch_eq_some {c : Int} {mk : Nat → Instr} (h : dispatch c = some mk) :
    (c = 10 ∧ mk = .read) ∨ (c = 11 ∧ mk = .write) ∨ (c = 20 ∧ mk = .load) ∨ (c = 21 ∧ mk = .store) ∨
    (c = 30 ∧ mk = .add) ∨ (c = 31 ∧ mk = .subtract) ∨ (c = 32 ∧ mk = .divide) ∨ (c = 33 ∧ mk = .multiply) ∨
    (c = 40 ∧ mk = .jump) ∨ (c = 41 ∧ mk = .jumpIfNegative) ∨ (c = 42 ∧ mk = .jumpIfZero) ∨
    (c = 43 ∧ mk = .halt) := by
  unfold dispatch at h
  iterate 12
    rcases ite_some_eq_some h with hrow | h
    · simp only [hrow, and_self, true_or, or_true]
  cases h

/-- A dispatched instruction carries its operand and the opcode it was selected by. -/
theorem dispatch_spec {c : Int} {mk : Nat → Instr} (h : dispatch c = some mk) (a : Nat) :
    ((mk a).opcode : Int) = c ∧ (mk a).operand = a := by
  rcases dispatch_eq_some h with h | h | h | h | h | h | h | h | h | h | h | h <;> (obtain ⟨rfl, rfl⟩ := h; exact ⟨rfl, rfl⟩)

/-- Every opcode of the table lies in `10 .. 43`. -/
theorem dispatch_range {c : Int} {mk : Nat → Instr} (h : dispatch c = some mk) : 10 ≤ c ∧ c ≤ 43 := by
  rcases dispatch_eq_some h with h | h | h | h | h | h | h | h | h | h | h | h <;> omega

/-- The table has an entry for every instruction, and it selects that instruction. -/
theorem dispatch_opcode (i : Instr) : ∃ mk, dispatch i.opcode = some mk ∧ mk i.operand = i := by
  cases i <;> exact ⟨_, rfl, rfl⟩

/-- `w = tdiv(w, 100)*100 + tmod(w, 100)` (00_scope.md R7). -/
theorem opcodeField_operandField (w : Word) : opcodeField w * operandModulus + operandField w = w.toInt := by
  have h := Int.mul_tdiv_add_tmod w.toInt operandModulus
  rwa [mul_comm] at h

/-- For a word that is not negative the split is by plain division. -/
theorem split_of_nonneg {w : Word} (h : 0 ≤ w.toInt) :
    opcodeField w = w.toInt / operandModulus ∧ operandField w = w.toInt % operandModulus :=
  ⟨Int.tdiv_eq_ediv_of_nonneg h, Int.tmod_eq_emod_of_nonneg h⟩

/-- A negative word has an opcode that is not positive (30_encoding.md R56). -/
theorem opcodeField_nonpos {w : Word} (h : w.toInt < 0) : opcodeField w ≤ 0 := by
  have hneg : (-w.toInt).tdiv operandModulus = -opcodeField w := Int.neg_tdiv _ _
  have hpos : 0 ≤ (-w.toInt).tdiv operandModulus := Int.tdiv_nonneg (by omega) (by decide)
  omega

/-- What decoding to an instruction means, in one line. -/
theorem decode_eq_ok {w : Word} {i : Instr} (h : decode w = .ok i) :
    ∃ mk, dispatch (opcodeField w) = some mk ∧ i = mk (operandField w).toNat := by
  unfold decode at h
  split at h
  · exact ⟨_, ‹_›, (Except.ok.inj h).symm⟩
  · cases h

/-- A word that decodes is not negative, its split is plain division, and the instruction carries both halves. -/
theorem decode_fields {w : Word} {i : Instr} (h : decode w = .ok i) :
    0 ≤ w.toInt ∧ (i.opcode : Int) = w.toInt / operandModulus ∧ (i.operand : Int) = w.toInt % operandModulus := by
  obtain ⟨mk, hd, rfl⟩ := decode_eq_ok h
  have hr := dispatch_range hd
  have hw : 0 ≤ w.toInt := by
    by_contra hneg
    have := opcodeField_nonpos (w := w) (by omega)
    omega
  obtain ⟨hc, ha⟩ := dispatch_spec hd (operandField w).toNat
  obtain ⟨h1, h2⟩ := split_of_nonneg hw
  refine ⟨hw, by rw [hc, h1], ?_⟩
  rw [ha, h2]
  have : 0 ≤ w.toInt % operandModulus := Int.emod_nonneg _ (by decide)
  omega

/-- A word whose opcode is absent is rejected by name. -/
theorem decode_eq_error {w : Word} {r : DecodeReject} (h : decode w = .error r) :
    dispatch (opcodeField w) = none ∧ r = .unknownOpcode (opcodeField w) := by
  unfold decode at h
  split at h
  · cases h
  · exact ⟨‹_›, (Except.error.inj h).symm⟩

/-- Well-formed is: the operand fits its two digits. -/
theorem Instr.wf_iff (i : Instr) : i.wf = true ↔ i.operand < operandModulus := by
  cases i <;> simp [Instr.wf, Instr.operand, operandFits]

theorem Instr.opcode_range (i : Instr) : 10 ≤ i.opcode ∧ i.opcode ≤ 43 := by
  cases i <;> simp [Instr.opcode]

/-- The word of a well-formed instruction, as a number (R52). -/
theorem toInt_encode {i : Instr} (h : i.wf = true) :
    (encode i).toInt = i.opcode * operandModulus + i.operand := by
  have ho := i.opcode_range
  have ha := (Instr.wf_iff i).mp h
  have hlt : i.opcode * operandModulus + i.operand < 2 ^ (wordBits - 1) := by
    simp only [operandModulus, wordBits] at *
    omega
  unfold encode
  rw [BitVec.toInt_eq_toNat_of_lt, BitVec.toNat_ofNat, Nat.mod_eq_of_lt]
  · push_cast; rfl
  · exact hlt.trans (by decide)
  · rw [BitVec.toNat_ofNat, Nat.mod_eq_of_lt (hlt.trans (by decide))]
    simp only [wordBits] at *
    omega

end Sys2Proof
end

