-- ==== Sys2Proof/Laws/State.lean ====
section
/-! SUPPORT. What each field update of Machine/Ops.lean does to each field of State, so that no proof unfolds a record
update. -/

namespace Sys2Proof.Machine

/-! ### `State.setAcc` -/

@[simp] theorem State.setAcc_acc (s : State) (v : Word) : (s.setAcc v).acc = v := rfl
@[simp] theorem State.setAcc_pc (s : State) (v : Word) : (s.setAcc v).pc = s.pc := rfl
@[simp] theorem State.setAcc_ir (s : State) (v : Word) : (s.setAcc v).ir = s.ir := rfl
@[simp] theorem State.setAcc_running (s : State) (v : Word) : (s.setAcc v).running = s.running := rfl
@[simp] theorem State.setAcc_mem (s : State) (v : Word) : (s.setAcc v).mem = s.mem := rfl
@[simp] theorem State.setAcc_inputs (s : State) (v : Word) : (s.setAcc v).inputs = s.inputs := rfl
@[simp] theorem State.setAcc_writeAnswers (s : State) (v : Word) : (s.setAcc v).writeAnswers = s.writeAnswers := rfl
@[simp] theorem State.setAcc_writeRest (s : State) (v : Word) : (s.setAcc v).writeRest = s.writeRest := rfl
@[simp] theorem State.setAcc_output (s : State) (v : Word) : (s.setAcc v).output = s.output := rfl
@[simp] theorem State.setAcc_reports (s : State) (v : Word) : (s.setAcc v).reports = s.reports := rfl
@[simp] theorem State.setAcc_hostOps (s : State) (v : Word) : (s.setAcc v).hostOps = s.hostOps := rfl
@[simp] theorem State.setAcc_hostResults (s : State) (v : Word) : (s.setAcc v).hostResults = s.hostResults := rfl

/-! ### `State.setPc` -/

@[simp] theorem State.setPc_acc (s : State) (a : Nat) : (s.setPc a).acc = s.acc := rfl
@[simp] theorem State.setPc_pc (s : State) (a : Nat) : (s.setPc a).pc = a := rfl
@[simp] theorem State.setPc_ir (s : State) (a : Nat) : (s.setPc a).ir = s.ir := rfl
@[simp] theorem State.setPc_running (s : State) (a : Nat) : (s.setPc a).running = s.running := rfl
@[simp] theorem State.setPc_mem (s : State) (a : Nat) : (s.setPc a).mem = s.mem := rfl
@[simp] theorem State.setPc_inputs (s : State) (a : Nat) : (s.setPc a).inputs = s.inputs := rfl
@[simp] theorem State.setPc_writeAnswers (s : State) (a : Nat) : (s.setPc a).writeAnswers = s.writeAnswers := rfl
@[simp] theorem State.setPc_writeRest (s : State) (a : Nat) : (s.setPc a).writeRest = s.writeRest := rfl
@[simp] theorem State.setPc_output (s : State) (a : Nat) : (s.setPc a).output = s.output := rfl
@[simp] theorem State.setPc_reports (s : State) (a : Nat) : (s.setPc a).reports = s.reports := rfl
@[simp] theorem State.setPc_hostOps (s : State) (a : Nat) : (s.setPc a).hostOps = s.hostOps := rfl
@[simp] theorem State.setPc_hostResults (s : State) (a : Nat) : (s.setPc a).hostResults = s.hostResults := rfl

/-! ### `State.setIr` -/

@[simp] theorem State.setIr_acc (s : State) (w : Word) : (s.setIr w).acc = s.acc := rfl
@[simp] theorem State.setIr_pc (s : State) (w : Word) : (s.setIr w).pc = s.pc := rfl
@[simp] theorem State.setIr_ir (s : State) (w : Word) : (s.setIr w).ir = w := rfl
@[simp] theorem State.setIr_running (s : State) (w : Word) : (s.setIr w).running = s.running := rfl
@[simp] theorem State.setIr_mem (s : State) (w : Word) : (s.setIr w).mem = s.mem := rfl
@[simp] theorem State.setIr_inputs (s : State) (w : Word) : (s.setIr w).inputs = s.inputs := rfl
@[simp] theorem State.setIr_writeAnswers (s : State) (w : Word) : (s.setIr w).writeAnswers = s.writeAnswers := rfl
@[simp] theorem State.setIr_writeRest (s : State) (w : Word) : (s.setIr w).writeRest = s.writeRest := rfl
@[simp] theorem State.setIr_output (s : State) (w : Word) : (s.setIr w).output = s.output := rfl
@[simp] theorem State.setIr_reports (s : State) (w : Word) : (s.setIr w).reports = s.reports := rfl
@[simp] theorem State.setIr_hostOps (s : State) (w : Word) : (s.setIr w).hostOps = s.hostOps := rfl
@[simp] theorem State.setIr_hostResults (s : State) (w : Word) : (s.setIr w).hostResults = s.hostResults := rfl

/-! ### `State.setMem` -/

@[simp] theorem State.setMem_acc (s : State) (m : Memory) : (s.setMem m).acc = s.acc := rfl
@[simp] theorem State.setMem_pc (s : State) (m : Memory) : (s.setMem m).pc = s.pc := rfl
@[simp] theorem State.setMem_ir (s : State) (m : Memory) : (s.setMem m).ir = s.ir := rfl
@[simp] theorem State.setMem_running (s : State) (m : Memory) : (s.setMem m).running = s.running := rfl
@[simp] theorem State.setMem_mem (s : State) (m : Memory) : (s.setMem m).mem = m := rfl
@[simp] theorem State.setMem_inputs (s : State) (m : Memory) : (s.setMem m).inputs = s.inputs := rfl
@[simp] theorem State.setMem_writeAnswers (s : State) (m : Memory) : (s.setMem m).writeAnswers = s.writeAnswers := rfl
@[simp] theorem State.setMem_writeRest (s : State) (m : Memory) : (s.setMem m).writeRest = s.writeRest := rfl
@[simp] theorem State.setMem_output (s : State) (m : Memory) : (s.setMem m).output = s.output := rfl
@[simp] theorem State.setMem_reports (s : State) (m : Memory) : (s.setMem m).reports = s.reports := rfl
@[simp] theorem State.setMem_hostOps (s : State) (m : Memory) : (s.setMem m).hostOps = s.hostOps := rfl
@[simp] theorem State.setMem_hostResults (s : State) (m : Memory) : (s.setMem m).hostResults = s.hostResults := rfl

/-! ### `State.setInputs` -/

@[simp] theorem State.setInputs_acc (s : State) (l : List ReadAnswer) : (s.setInputs l).acc = s.acc := rfl
@[simp] theorem State.setInputs_pc (s : State) (l : List ReadAnswer) : (s.setInputs l).pc = s.pc := rfl
@[simp] theorem State.setInputs_ir (s : State) (l : List ReadAnswer) : (s.setInputs l).ir = s.ir := rfl
@[simp] theorem State.setInputs_running (s : State) (l : List ReadAnswer) : (s.setInputs l).running = s.running := rfl
@[simp] theorem State.setInputs_mem (s : State) (l : List ReadAnswer) : (s.setInputs l).mem = s.mem := rfl
@[simp] theorem State.setInputs_inputs (s : State) (l : List ReadAnswer) : (s.setInputs l).inputs = l := rfl
@[simp] theorem State.setInputs_writeAnswers (s : State) (l : List ReadAnswer) : (s.setInputs l).writeAnswers = s.writeAnswers := rfl
@[simp] theorem State.setInputs_writeRest (s : State) (l : List ReadAnswer) : (s.setInputs l).writeRest = s.writeRest := rfl
@[simp] theorem State.setInputs_output (s : State) (l : List ReadAnswer) : (s.setInputs l).output = s.output := rfl
@[simp] theorem State.setInputs_reports (s : State) (l : List ReadAnswer) : (s.setInputs l).reports = s.reports := rfl
@[simp] theorem State.setInputs_hostOps (s : State) (l : List ReadAnswer) : (s.setInputs l).hostOps = s.hostOps := rfl
@[simp] theorem State.setInputs_hostResults (s : State) (l : List ReadAnswer) : (s.setInputs l).hostResults = s.hostResults := rfl

/-! ### `State.setWriteAnswers` -/

@[simp] theorem State.setWriteAnswers_acc (s : State) (l : List WriteAnswer) : (s.setWriteAnswers l).acc = s.acc := rfl
@[simp] theorem State.setWriteAnswers_pc (s : State) (l : List WriteAnswer) : (s.setWriteAnswers l).pc = s.pc := rfl
@[simp] theorem State.setWriteAnswers_ir (s : State) (l : List WriteAnswer) : (s.setWriteAnswers l).ir = s.ir := rfl
@[simp] theorem State.setWriteAnswers_running (s : State) (l : List WriteAnswer) : (s.setWriteAnswers l).running = s.running := rfl
@[simp] theorem State.setWriteAnswers_mem (s : State) (l : List WriteAnswer) : (s.setWriteAnswers l).mem = s.mem := rfl
@[simp] theorem State.setWriteAnswers_inputs (s : State) (l : List WriteAnswer) : (s.setWriteAnswers l).inputs = s.inputs := rfl
@[simp] theorem State.setWriteAnswers_writeAnswers (s : State) (l : List WriteAnswer) : (s.setWriteAnswers l).writeAnswers = l := rfl
@[simp] theorem State.setWriteAnswers_writeRest (s : State) (l : List WriteAnswer) : (s.setWriteAnswers l).writeRest = s.writeRest := rfl
@[simp] theorem State.setWriteAnswers_output (s : State) (l : List WriteAnswer) : (s.setWriteAnswers l).output = s.output := rfl
@[simp] theorem State.setWriteAnswers_reports (s : State) (l : List WriteAnswer) : (s.setWriteAnswers l).reports = s.reports := rfl
@[simp] theorem State.setWriteAnswers_hostOps (s : State) (l : List WriteAnswer) : (s.setWriteAnswers l).hostOps = s.hostOps := rfl
@[simp] theorem State.setWriteAnswers_hostResults (s : State) (l : List WriteAnswer) : (s.setWriteAnswers l).hostResults = s.hostResults := rfl

/-! ### `State.emit` -/

@[simp] theorem State.emit_acc (s : State) (v : Word) : (s.emit v).acc = s.acc := rfl
@[simp] theorem State.emit_pc (s : State) (v : Word) : (s.emit v).pc = s.pc := rfl
@[simp] theorem State.emit_ir (s : State) (v : Word) : (s.emit v).ir = s.ir := rfl
@[simp] theorem State.emit_running (s : State) (v : Word) : (s.emit v).running = s.running := rfl
@[simp] theorem State.emit_mem (s : State) (v : Word) : (s.emit v).mem = s.mem := rfl
@[simp] theorem State.emit_inputs (s : State) (v : Word) : (s.emit v).inputs = s.inputs := rfl
@[simp] theorem State.emit_writeAnswers (s : State) (v : Word) : (s.emit v).writeAnswers = s.writeAnswers := rfl
@[simp] theorem State.emit_writeRest (s : State) (v : Word) : (s.emit v).writeRest = s.writeRest := rfl
@[simp] theorem State.emit_output (s : State) (v : Word) : (s.emit v).output = s.output ++ [v] := rfl
@[simp] theorem State.emit_reports (s : State) (v : Word) : (s.emit v).reports = s.reports := rfl
@[simp] theorem State.emit_hostOps (s : State) (v : Word) : (s.emit v).hostOps = s.hostOps := rfl
@[simp] theorem State.emit_hostResults (s : State) (v : Word) : (s.emit v).hostResults = s.hostResults := rfl

/-! ### `State.report` -/

@[simp] theorem State.report_acc (s : State) (e : RunError) : (s.report e).acc = s.acc := rfl
@[simp] theorem State.report_pc (s : State) (e : RunError) : (s.report e).pc = s.pc := rfl
@[simp] theorem State.report_ir (s : State) (e : RunError) : (s.report e).ir = s.ir := rfl
@[simp] theorem State.report_running (s : State) (e : RunError) : (s.report e).running = s.running := rfl
@[simp] theorem State.report_mem (s : State) (e : RunError) : (s.report e).mem = s.mem := rfl
@[simp] theorem State.report_inputs (s : State) (e : RunError) : (s.report e).inputs = s.inputs := rfl
@[simp] theorem State.report_writeAnswers (s : State) (e : RunError) : (s.report e).writeAnswers = s.writeAnswers := rfl
@[simp] theorem State.report_writeRest (s : State) (e : RunError) : (s.report e).writeRest = s.writeRest := rfl
@[simp] theorem State.report_output (s : State) (e : RunError) : (s.report e).output = s.output := rfl
@[simp] theorem State.report_reports (s : State) (e : RunError) : (s.report e).reports = s.reports ++ [e] := rfl
@[simp] theorem State.report_hostOps (s : State) (e : RunError) : (s.report e).hostOps = s.hostOps := rfl
@[simp] theorem State.report_hostResults (s : State) (e : RunError) : (s.report e).hostResults = s.hostResults := rfl

/-! ### `State.endRun` -/

@[simp] theorem State.endRun_acc (s : State) (o : RunOutcome) : (s.endRun o).acc = s.acc := rfl
@[simp] theorem State.endRun_pc (s : State) (o : RunOutcome) : (s.endRun o).pc = s.pc := rfl
@[simp] theorem State.endRun_ir (s : State) (o : RunOutcome) : (s.endRun o).ir = s.ir := rfl
@[simp] theorem State.endRun_running (s : State) (o : RunOutcome) : (s.endRun o).running = false := rfl
@[simp] theorem State.endRun_mem (s : State) (o : RunOutcome) : (s.endRun o).mem = s.mem := rfl
@[simp] theorem State.endRun_inputs (s : State) (o : RunOutcome) : (s.endRun o).inputs = s.inputs := rfl
@[simp] theorem State.endRun_writeAnswers (s : State) (o : RunOutcome) : (s.endRun o).writeAnswers = s.writeAnswers := rfl
@[simp] theorem State.endRun_writeRest (s : State) (o : RunOutcome) : (s.endRun o).writeRest = s.writeRest := rfl
@[simp] theorem State.endRun_output (s : State) (o : RunOutcome) : (s.endRun o).output = s.output := rfl
@[simp] theorem State.endRun_reports (s : State) (o : RunOutcome) : (s.endRun o).reports = s.reports := rfl
@[simp] theorem State.endRun_hostOps (s : State) (o : RunOutcome) : (s.endRun o).hostOps = s.hostOps := rfl
@[simp] theorem State.endRun_hostResults (s : State) (o : RunOutcome) : (s.endRun o).hostResults = s.hostResults ++ [.runEnded o] := rfl

/-! ### `State.startRun` -/

@[simp] theorem State.startRun_acc (s : State) : (s.startRun).acc = s.acc := rfl
@[simp] theorem State.startRun_pc (s : State) : (s.startRun).pc = 0 := rfl
@[simp] theorem State.startRun_ir (s : State) : (s.startRun).ir = s.ir := rfl
@[simp] theorem State.startRun_running (s : State) : (s.startRun).running = true := rfl
@[simp] theorem State.startRun_mem (s : State) : (s.startRun).mem = s.mem := rfl
@[simp] theorem State.startRun_inputs (s : State) : (s.startRun).inputs = s.inputs := rfl
@[simp] theorem State.startRun_writeAnswers (s : State) : (s.startRun).writeAnswers = s.writeAnswers := rfl
@[simp] theorem State.startRun_writeRest (s : State) : (s.startRun).writeRest = s.writeRest := rfl
@[simp] theorem State.startRun_output (s : State) : (s.startRun).output = s.output := rfl
@[simp] theorem State.startRun_reports (s : State) : (s.startRun).reports = s.reports := rfl
@[simp] theorem State.startRun_hostOps (s : State) : (s.startRun).hostOps = s.hostOps := rfl
@[simp] theorem State.startRun_hostResults (s : State) : (s.startRun).hostResults = s.hostResults := rfl

/-! ### `State.setHostOps` -/

@[simp] theorem State.setHostOps_acc (s : State) (l : List HostOp) : (s.setHostOps l).acc = s.acc := rfl
@[simp] theorem State.setHostOps_pc (s : State) (l : List HostOp) : (s.setHostOps l).pc = s.pc := rfl
@[simp] theorem State.setHostOps_ir (s : State) (l : List HostOp) : (s.setHostOps l).ir = s.ir := rfl
@[simp] theorem State.setHostOps_running (s : State) (l : List HostOp) : (s.setHostOps l).running = s.running := rfl
@[simp] theorem State.setHostOps_mem (s : State) (l : List HostOp) : (s.setHostOps l).mem = s.mem := rfl
@[simp] theorem State.setHostOps_inputs (s : State) (l : List HostOp) : (s.setHostOps l).inputs = s.inputs := rfl
@[simp] theorem State.setHostOps_writeAnswers (s : State) (l : List HostOp) : (s.setHostOps l).writeAnswers = s.writeAnswers := rfl
@[simp] theorem State.setHostOps_writeRest (s : State) (l : List HostOp) : (s.setHostOps l).writeRest = s.writeRest := rfl
@[simp] theorem State.setHostOps_output (s : State) (l : List HostOp) : (s.setHostOps l).output = s.output := rfl
@[simp] theorem State.setHostOps_reports (s : State) (l : List HostOp) : (s.setHostOps l).reports = s.reports := rfl
@[simp] theorem State.setHostOps_hostOps (s : State) (l : List HostOp) : (s.setHostOps l).hostOps = l := rfl
@[simp] theorem State.setHostOps_hostResults (s : State) (l : List HostOp) : (s.setHostOps l).hostResults = s.hostResults := rfl

/-! ### `State.answerHost` -/

@[simp] theorem State.answerHost_acc (s : State) (r : HostResult) : (s.answerHost r).acc = s.acc := rfl
@[simp] theorem State.answerHost_pc (s : State) (r : HostResult) : (s.answerHost r).pc = s.pc := rfl
@[simp] theorem State.answerHost_ir (s : State) (r : HostResult) : (s.answerHost r).ir = s.ir := rfl
@[simp] theorem State.answerHost_running (s : State) (r : HostResult) : (s.answerHost r).running = s.running := rfl
@[simp] theorem State.answerHost_mem (s : State) (r : HostResult) : (s.answerHost r).mem = s.mem := rfl
@[simp] theorem State.answerHost_inputs (s : State) (r : HostResult) : (s.answerHost r).inputs = s.inputs := rfl
@[simp] theorem State.answerHost_writeAnswers (s : State) (r : HostResult) : (s.answerHost r).writeAnswers = s.writeAnswers := rfl
@[simp] theorem State.answerHost_writeRest (s : State) (r : HostResult) : (s.answerHost r).writeRest = s.writeRest := rfl
@[simp] theorem State.answerHost_output (s : State) (r : HostResult) : (s.answerHost r).output = s.output := rfl
@[simp] theorem State.answerHost_reports (s : State) (r : HostResult) : (s.answerHost r).reports = s.reports := rfl
@[simp] theorem State.answerHost_hostOps (s : State) (r : HostResult) : (s.answerHost r).hostOps = s.hostOps := rfl
@[simp] theorem State.answerHost_hostResults (s : State) (r : HostResult) : (s.answerHost r).hostResults = s.hostResults ++ [r] := rfl

/-! ### Shared operations built from them -/

@[simp] theorem raiseRunError_eq (e : RunError) (s : State) :
    raiseRunError e s = (s.report e).endRun (.failed e) := rfl

@[simp] theorem advancePc_eq (s : State) : advancePc s = s.setPc (s.pc + 1) := rfl

end Sys2Proof.Machine
end

