-- ==== Sys2Proof/Laws/Memory.lean ====
section
/-! SUPPORT. Memory: a read after a write, the canonical form kept by every memory operation, the contents of a loaded
image, and what the validated accesses of 20_memory.md R31 can do. -/

namespace Sys2Proof.Machine

/-! ### Cells -/

theorem Memory.cell_cons (k : Nat) (w : Word) (m : Memory) (a : Nat) :
    Memory.cell ((k, w) :: m) a = if k = a then w else Memory.cell m a := rfl

theorem Memory.wfFrom_cons (lo k : Nat) (w : Word) (m : Memory) :
    Memory.wfFrom lo ((k, w) :: m) = true ↔
      lo ≤ k ∧ k < memorySize ∧ w ≠ Memory.unlistedValue ∧ Memory.wfFrom (k + 1) m = true := by
  simp [Memory.wfFrom, and_assoc]

/-- A canonical list may be taken to begin lower. -/
theorem Memory.wfFrom_mono {lo lo' : Nat} (h : lo' ≤ lo) {m : Memory} (hm : Memory.wfFrom lo m = true) :
    Memory.wfFrom lo' m = true := by
  cases m with
  | nil => rfl
  | cons e m =>
    obtain ⟨k, w⟩ := e
    rw [Memory.wfFrom_cons] at hm ⊢
    exact ⟨h.trans hm.1, hm.2⟩

/-- Below its first address a canonical memory lists nothing. -/
theorem Memory.cell_below {lo a : Nat} {m : Memory} (hm : Memory.wfFrom lo m = true) (ha : a < lo) :
    Memory.cell m a = Memory.unlistedValue := by
  induction m generalizing lo with
  | nil => rfl
  | cons e m ih =>
    obtain ⟨k, w⟩ := e
    rw [Memory.wfFrom_cons] at hm
    rw [Memory.cell_cons, if_neg (by omega), ih hm.2.2.2 (by omega)]

/-- At and above `MEMORY_SIZE` a canonical memory lists nothing. -/
theorem Memory.cell_above {lo a : Nat} {m : Memory} (hm : Memory.wfFrom lo m = true) (ha : memorySize ≤ a) :
    Memory.cell m a = Memory.unlistedValue := by
  induction m generalizing lo with
  | nil => rfl
  | cons e m ih =>
    obtain ⟨k, w⟩ := e
    rw [Memory.wfFrom_cons] at hm
    rw [Memory.cell_cons, if_neg (by omega), ih hm.2.2.2]

/-- A write leaves every other cell alone. -/
theorem Memory.cell_store_ne (m : Memory) {a b : Nat} (v : Word) (h : b ≠ a) :
    Memory.cell (Memory.store m a v) b = Memory.cell m b := by
  induction m with
  | nil => simp only [Memory.store]; split <;> simp [Memory.cell, Ne.symm h]
  | cons e m ih =>
    obtain ⟨k, w⟩ := e
    simp only [Memory.store]
    split
    · split <;> simp [Memory.cell, Ne.symm h]
    · split
      · subst_vars
        split <;> simp [Memory.cell, Ne.symm h]
      · simp [Memory.cell, ih]

/-- A read after a write to the same cell gives the value written. -/
theorem Memory.cell_store_same {lo : Nat} {m : Memory} (hm : Memory.wfFrom lo m = true) (a : Nat) (v : Word) :
    Memory.cell (Memory.store m a v) a = v := by
  induction m generalizing lo with
  | nil => simp only [Memory.store]; split <;> simp_all [Memory.cell]
  | cons e m ih =>
    obtain ⟨k, w⟩ := e
    rw [Memory.wfFrom_cons] at hm
    simp only [Memory.store]
    split
    · rename_i hlt
      split
      · subst_vars
        exact Memory.cell_below (lo := k) (by rw [Memory.wfFrom_cons]; exact ⟨le_rfl, hm.2⟩) hlt
      · simp [Memory.cell]
    · split
      · split
        · subst_vars
          exact Memory.cell_below hm.2.2.2 (by omega)
        · simp [Memory.cell]
      · rw [Memory.cell_cons, if_neg (by omega), ih hm.2.2.2]

/-- A write to a cell in range keeps the canonical form. -/
theorem Memory.wfFrom_store {lo : Nat} {m : Memory} (hm : Memory.wfFrom lo m = true) {a : Nat} (hlo : lo ≤ a)
    (ha : a < memorySize) (v : Word) : Memory.wfFrom lo (Memory.store m a v) = true := by
  induction m generalizing lo with
  | nil =>
    simp only [Memory.store]
    split
    · rfl
    · rw [Memory.wfFrom_cons]; exact ⟨hlo, ha, ‹_›, rfl⟩
  | cons e m ih =>
    obtain ⟨k, w⟩ := e
    have hm' := hm
    rw [Memory.wfFrom_cons] at hm
    simp only [Memory.store]
    split
    · split
      · exact hm'
      · rw [Memory.wfFrom_cons, Memory.wfFrom_cons]
        exact ⟨hlo, ha, ‹_›, by omega, hm.2⟩
    · split
      · split
        · exact Memory.wfFrom_mono (by omega) hm.2.2.2
        · rw [Memory.wfFrom_cons]
          subst_vars
          exact ⟨hlo, ha, ‹_›, hm.2.2.2⟩
      · rw [Memory.wfFrom_cons]
        exact ⟨hm.1, hm.2.1, hm.2.2.1, ih hm.2.2.2 (by omega)⟩

theorem Memory.wf_store {m : Memory} (hm : m.wf = true) {a : Nat} (ha : a < memorySize) (v : Word) :
    (m.store a v).wf = true :=
  Memory.wfFrom_store hm (Nat.zero_le a) ha v

/-- The cells of an image that fits. -/
theorem Memory.wfFrom_ofCellsFrom (l : List Word) (a : Nat) (h : a + l.length ≤ memorySize) :
    Memory.wfFrom a (Memory.ofCellsFrom a l) = true := by
  induction l generalizing a with
  | nil => rfl
  | cons v l ih =>
    rw [List.length_cons] at h
    have htail := ih (a + 1) (by omega)
    simp only [Memory.ofCellsFrom]
    split
    · exact Memory.wfFrom_mono (by omega) htail
    · rw [Memory.wfFrom_cons]
      exact ⟨le_rfl, by omega, ‹_›, htail⟩

theorem Memory.wf_ofImage {image : List Word} (h : image.length ≤ memorySize) : (Memory.ofImage image).wf = true :=
  Memory.wfFrom_ofCellsFrom image 0 (by omega)

theorem Memory.cell_ofCellsFrom_below (l : List Word) {a b : Nat} (h : b < a) :
    Memory.cell (Memory.ofCellsFrom a l) b = Memory.unlistedValue := by
  induction l generalizing a with
  | nil => rfl
  | cons v l ih =>
    simp only [Memory.ofCellsFrom]
    split
    · exact ih (by omega)
    · rw [Memory.cell_cons, if_neg (by omega), ih (by omega)]

/-- An image's cells are its words, in order. -/
theorem Memory.cell_ofCellsFrom (l : List Word) (a i : Nat) :
    Memory.cell (Memory.ofCellsFrom a l) (a + i) = l.getD i Memory.unlistedValue := by
  induction l generalizing a i with
  | nil => rfl
  | cons v l ih =>
    simp only [Memory.ofCellsFrom]
    cases i with
    | zero =>
      split
      · subst_vars
        exact Memory.cell_ofCellsFrom_below l (by omega)
      · simp [Memory.cell_cons]
    | succ i =>
      have hstep := ih (a + 1) i
      rw [show a + 1 + i = a + (i + 1) by omega] at hstep
      split
      · simpa using hstep
      · rw [Memory.cell_cons, if_neg (by omega)]
        simpa using hstep

theorem Memory.cell_ofImage (image : List Word) (i : Nat) :
    (Memory.ofImage image).cell i = image.getD i Memory.unlistedValue := by
  simpa [Memory.ofImage] using Memory.cell_ofCellsFrom image 0 i

/-! ### The validator and its two accesses -/

theorem validAddress_iff (a : Int) : validAddress a = true ↔ 0 ≤ a ∧ a < memorySize := by
  cases a with
  | ofNat n => simp [validAddress]
  | negSucc n => simp [validAddress, Int.negSucc_not_nonneg]

@[simp] theorem validAddress_natCast (a : Nat) : validAddress (a : Int) = decide (a < memorySize) := rfl

theorem memRead_of_valid {a : Int} (h : validAddress a = true) (s : State) :
    memRead a s = some (s.mem.cell a.toNat) := if_pos h

theorem memRead_of_not_valid {a : Int} (h : validAddress a = false) (s : State) : memRead a s = none := by
  simp [memRead, h]

theorem memWrite_of_valid {a : Int} (h : validAddress a = true) (v : Word) (s : State) :
    memWrite a v s = some (s.setMem (s.mem.store a.toNat v)) := if_pos h

theorem memWrite_of_not_valid {a : Int} (h : validAddress a = false) (v : Word) (s : State) :
    memWrite a v s = none := by
  simp [memWrite, h]

@[simp] theorem memRead_natCast (a : Nat) (s : State) :
    memRead (a : Int) s = if a < memorySize then some (s.mem.cell a) else none := by
  simp [memRead]

@[simp] theorem memWrite_natCast (a : Nat) (v : Word) (s : State) :
    memWrite (a : Int) v s = if a < memorySize then some (s.setMem (s.mem.store a v)) else none := by
  simp [memWrite]

@[simp] theorem fetchWord_eq (s : State) :
    fetchWord s = if s.pc < memorySize then some (s.mem.cell s.pc) else none := memRead_natCast s.pc s

end Sys2Proof.Machine
end

