-- ==== Sys2Proof/Laws/Operands.lean ====
section
/-! SUPPORT. The operand accesses, the collaborator's two ports, the overflow rule and the ALU's shared datapath: one
lemma for what each can do. -/

namespace Sys2Proof.Machine

@[simp] theorem readOperand_eq (a : Nat) (s : State) :
    readOperand a s = if a < memorySize then some (s.mem.cell a) else none := memRead_natCast a s

@[simp] theorem writeOperand_eq (a : Nat) (v : Word) (s : State) :
    writeOperand a v s = if a < memorySize then some (s.setMem (s.mem.store a v)) else none := memWrite_natCast a v s

/-! ### The I/O collaborator (40_io.md R70) -/

theorem ioRead_of_nil {s : State} (h : s.inputs = []) : ioRead s = .unanswered := by
  simp [ioRead, h]

theorem ioRead_of_value {s : State} {v : Word} {rest : List ReadAnswer} (h : s.inputs = .value v :: rest) :
    ioRead s = .value v (s.setInputs rest) := by
  simp [ioRead, h]

theorem ioRead_of_fail {s : State} {rest : List ReadAnswer} (h : s.inputs = .fail :: rest) :
    ioRead s = .fail (s.setInputs rest) := by
  simp [ioRead, h]

theorem ioWrite_of_ok {s : State} (h : nextWriteAnswer s = .ok) (v : Word) :
    ioWrite v s = (true, (s.setWriteAnswers s.writeAnswers.tail).emit v) := by
  simp [ioWrite, h]

theorem ioWrite_of_fail {s : State} (h : nextWriteAnswer s = .fail) (v : Word) :
    ioWrite v s = (false, s.setWriteAnswers s.writeAnswers.tail) := by
  simp [ioWrite, h]

/-! ### Arithmetic -/

@[simp] theorem narrow_wrap (v : Int) : narrow .wrap v = .value (wrap v) := rfl

@[simp] theorem aluAdd_eq (x y : Word) : aluAdd x y = .value (wrap (x.toInt + y.toInt)) := rfl
@[simp] theorem aluSubtract_eq (x y : Word) : aluSubtract x y = .value (wrap (x.toInt - y.toInt)) := rfl
@[simp] theorem aluMultiply_eq (x y : Word) : aluMultiply x y = .value (wrap (x.toInt * y.toInt)) := rfl

theorem aluDivide_of_zero {y : Word} (h : y = 0) (x : Word) : aluDivide x y = .error .divisionByZero := if_pos h

theorem aluDivide_of_ne_zero {y : Word} (h : y ≠ 0) (x : Word) :
    aluDivide x y = .value (wrap (x.toInt.tdiv y.toInt)) := if_neg h

/-- `wrap` is the reduction of 00_scope.md R7. -/
theorem toInt_wrap (v : Int) : (wrap v).toInt = (v - minInt) % 4294967296 + minInt := by
  simp only [wrap, BitVec.toInt_ofInt, Int.bmod_def, minInt]
  norm_num
  split <;> omega

/-- A value that fits is not changed by `wrap`. -/
theorem toInt_wrap_of_fits {v : Int} (h : minInt ≤ v) (h' : v ≤ maxInt) : (wrap v).toInt = v := by
  rw [toInt_wrap]
  simp only [minInt, maxInt] at *
  omega

/-- The range of a word read as a signed integer. -/
theorem Word.toInt_range (w : Word) : minInt ≤ w.toInt ∧ w.toInt ≤ maxInt := by
  have h1 := w.le_toInt
  have h2 := w.toInt_lt
  simp only [minInt, maxInt, wordBits] at *
  omega

/-- The ALU's shared datapath (42_arithmetic.md R90), by what the operation delivers. -/
theorem aluStage_of_value {op : Word → Word → AluResult} {a : Nat} {s : State} {v : Word} (h : a < memorySize)
    (hv : op s.acc (s.mem.cell a) = .value v) : aluStage op a s = .done (s.setAcc v) := by
  simp only [aluStage, readOperand_eq, if_pos h, hv]

theorem aluStage_of_error {op : Word → Word → AluResult} {a : Nat} {s : State} {e : RunError} (h : a < memorySize)
    (he : op s.acc (s.mem.cell a) = .error e) : aluStage op a s = .raised e s := by
  simp only [aluStage, readOperand_eq, if_pos h, he]

theorem aluStage_of_not_valid (op : Word → Word → AluResult) {a : Nat} (h : memorySize ≤ a) (s : State) :
    aluStage op a s = .raised .addressOutOfRange s := by
  rw [aluStage, readOperand_eq, if_neg (Nat.not_lt.mpr h)]

end Sys2Proof.Machine
end

