-- ==== Sys2Proof/Laws/Exec.lean ====
section
/-! SUPPORT. Everything `exec` can do, said once as a relation: every proof about a next state is a case analysis of
`ExecResult` and never unfolds a meaning. -/

namespace Sys2Proof.Machine

/-- The instructions whose operand is a memory address read or written before anything else happens (20_memory.md
R35; READ is not among them, since it consumes its input first, D13). -/
def Instr.checksAddressFirst : Instr → Bool
  | .write _ | .load _ | .store _ => true
  | .add _ | .subtract _ | .divide _ | .multiply _ => true
  | .read _ | .jump _ | .jumpIfNegative _ | .jumpIfZero _ | .halt _ => false

/-- `ExecResult s i t`: in the state `s` the instruction `i` gives the state `t`. -/
inductive ExecResult (s : State) : Instr → State → Prop where
  | readWaits (a : Nat) (h : s.inputs = []) : ExecResult s (.read a) s
  | readFails (a : Nat) (rest : List ReadAnswer) (h : s.inputs = .fail :: rest) :
    ExecResult s (.read a) (raiseRunError .ioFailure (s.setInputs rest))
  | readStores (a : Nat) (v : Word) (rest : List ReadAnswer) (h : s.inputs = .value v :: rest) (ha : a < memorySize) :
    ExecResult s (.read a) (((s.setInputs rest).setMem (s.mem.store a v)).setPc (s.pc + 1))
  | readOutOfRange (a : Nat) (v : Word) (rest : List ReadAnswer) (h : s.inputs = .value v :: rest)
    (ha : memorySize ≤ a) : ExecResult s (.read a) (raiseRunError .addressOutOfRange (s.setInputs rest))
  | outOfRange (i : Instr) (hi : Instr.checksAddressFirst i = true) (ha : memorySize ≤ i.operand) :
    ExecResult s i (raiseRunError .addressOutOfRange s)
  | writeEmits (a : Nat) (ha : a < memorySize) (h : nextWriteAnswer s = .ok) :
    ExecResult s (.write a) (((s.setWriteAnswers s.writeAnswers.tail).emit (s.mem.cell a)).setPc (s.pc + 1))
  | writeFails (a : Nat) (ha : a < memorySize) (h : nextWriteAnswer s = .fail) :
    ExecResult s (.write a) (raiseRunError .ioFailure (s.setWriteAnswers s.writeAnswers.tail))
  | load (a : Nat) (ha : a < memorySize) : ExecResult s (.load a) ((s.setAcc (s.mem.cell a)).setPc (s.pc + 1))
  | store (a : Nat) (ha : a < memorySize) :
    ExecResult s (.store a) ((s.setMem (s.mem.store a s.acc)).setPc (s.pc + 1))
  | add (a : Nat) (ha : a < memorySize) :
    ExecResult s (.add a) ((s.setAcc (wrap (s.acc.toInt + (s.mem.cell a).toInt))).setPc (s.pc + 1))
  | subtract (a : Nat) (ha : a < memorySize) :
    ExecResult s (.subtract a) ((s.setAcc (wrap (s.acc.toInt - (s.mem.cell a).toInt))).setPc (s.pc + 1))
  | divideByZero (a : Nat) (ha : a < memorySize) (h : s.mem.cell a = 0) :
    ExecResult s (.divide a) (raiseRunError .divisionByZero s)
  | divide (a : Nat) (ha : a < memorySize) (h : s.mem.cell a ≠ 0) :
    ExecResult s (.divide a) ((s.setAcc (wrap (s.acc.toInt.tdiv (s.mem.cell a).toInt))).setPc (s.pc + 1))
  | multiply (a : Nat) (ha : a < memorySize) :
    ExecResult s (.multiply a) ((s.setAcc (wrap (s.acc.toInt * (s.mem.cell a).toInt))).setPc (s.pc + 1))
  | jump (a : Nat) : ExecResult s (.jump a) (s.setPc a)
  | jumpIfNegativeTaken (a : Nat) (h : s.acc.toInt < 0) : ExecResult s (.jumpIfNegative a) (s.setPc a)
  | jumpIfNegativeNotTaken (a : Nat) (h : ¬ s.acc.toInt < 0) : ExecResult s (.jumpIfNegative a) (s.setPc (s.pc + 1))
  | jumpIfZeroTaken (a : Nat) (h : s.acc = 0) : ExecResult s (.jumpIfZero a) (s.setPc a)
  | jumpIfZeroNotTaken (a : Nat) (h : s.acc ≠ 0) : ExecResult s (.jumpIfZero a) (s.setPc (s.pc + 1))
  | halt (a : Nat) : ExecResult s (.halt a) ((s.endRun .completed).setPc (s.pc + 1))

/-! ### The conditional jumps, by their one test -/

theorem branch_taken {s : State} {taken : Bool} (h : taken = true) (a : Nat) :
    branchStage taken a s = .done (s.setPc a) := by
  simp [branchStage, h, jumpTarget]

theorem branch_not_taken {s : State} {taken : Bool} (h : taken = false) (a : Nat) :
    branchStage taken a s = .done (s.setPc (s.pc + 1)) := by
  simp [branchStage, h]

theorem execJumpIfNegative_taken {s : State} (h : s.acc.toInt < 0) (a : Nat) :
    execJumpIfNegative a s = .next (s.setPc a) := by
  rw [execJumpIfNegative, accNegative, branch_taken (decide_eq_true h)]
  rfl

theorem execJumpIfNegative_not_taken {s : State} (h : ¬ s.acc.toInt < 0) (a : Nat) :
    execJumpIfNegative a s = .next (s.setPc (s.pc + 1)) := by
  rw [execJumpIfNegative, accNegative, branch_not_taken (decide_eq_false h)]
  rfl

theorem execJumpIfZero_taken {s : State} (h : s.acc = 0) (a : Nat) : execJumpIfZero a s = .next (s.setPc a) := by
  rw [execJumpIfZero, accZero, branch_taken (decide_eq_true h)]
  rfl

theorem execJumpIfZero_not_taken {s : State} (h : s.acc ≠ 0) (a : Nat) :
    execJumpIfZero a s = .next (s.setPc (s.pc + 1)) := by
  rw [execJumpIfZero, accZero, branch_not_taken (decide_eq_false h)]
  rfl

/-- `exec` always answers a next state, and it is one of these. -/
theorem exec_result (i : Instr) (s : State) : ∃ t, exec i s = .next t ∧ ExecResult s i t := by
  by_cases hr : memorySize ≤ i.operand ∧ Instr.checksAddressFirst i = true
  · refine ⟨_, ?_, .outOfRange i hr.2 hr.1⟩
    have hlt : ¬ i.operand < memorySize := Nat.not_lt.mpr hr.1
    obtain ⟨_, hi⟩ := hr
    cases i <;> cases hi
    all_goals
      simp only [Instr.operand] at hlt
      simp only [exec, execWrite, execLoad, execStore, execAdd, execSubtract, execDivide, execMultiply, writeStage,
        loadStage, storeStage, aluStage, readOperand_eq, writeOperand_eq, if_neg hlt, finishStage]
  · cases i with
    | read a =>
      match h : s.inputs with
      | [] => exact ⟨_, by simp [exec, execRead, readStage, ioRead_of_nil h, finishStage], .readWaits a h⟩
      | .fail :: rest =>
        exact ⟨_, by simp [exec, execRead, readStage, ioRead_of_fail h, finishStage], .readFails a rest h⟩
      | .value v :: rest =>
        by_cases ha : a < memorySize
        · exact ⟨_, by simp [exec, execRead, readStage, ioRead_of_value h, finishStage, ha, affectsControlFlow],
            .readStores a v rest h ha⟩
        · exact ⟨_, by simp [exec, execRead, readStage, ioRead_of_value h, finishStage, ha],
            .readOutOfRange a v rest h (by omega)⟩
    | write a =>
      have ha : a < memorySize := by simpa [Instr.checksAddressFirst, Instr.operand] using hr
      cases h : nextWriteAnswer s with
      | ok =>
        exact ⟨_, by simp [exec, execWrite, writeStage, ha, ioWrite_of_ok h, finishStage, affectsControlFlow],
          .writeEmits a ha h⟩
      | fail =>
        exact ⟨_, by simp [exec, execWrite, writeStage, ha, ioWrite_of_fail h, finishStage], .writeFails a ha h⟩
    | load a =>
      have ha : a < memorySize := by simpa [Instr.checksAddressFirst, Instr.operand] using hr
      exact ⟨_, by simp [exec, execLoad, loadStage, ha, finishStage, affectsControlFlow], .load a ha⟩
    | store a =>
      have ha : a < memorySize := by simpa [Instr.checksAddressFirst, Instr.operand] using hr
      exact ⟨_, by simp [exec, execStore, storeStage, ha, finishStage, affectsControlFlow], .store a ha⟩
    | add a =>
      have ha : a < memorySize := by simpa [Instr.checksAddressFirst, Instr.operand] using hr
      exact ⟨_, by simp [exec, execAdd, aluStage, ha, finishStage, affectsControlFlow], .add a ha⟩
    | subtract a =>
      have ha : a < memorySize := by simpa [Instr.checksAddressFirst, Instr.operand] using hr
      exact ⟨_, by simp [exec, execSubtract, aluStage, ha, finishStage, affectsControlFlow], .subtract a ha⟩
    | divide a =>
      have ha : a < memorySize := by simpa [Instr.checksAddressFirst, Instr.operand] using hr
      by_cases h : s.mem.cell a = 0
      · exact ⟨_, by simp [exec, execDivide, aluStage, ha, aluDivide_of_zero h, finishStage], .divideByZero a ha h⟩
      · exact ⟨_, by simp [exec, execDivide, aluStage, ha, aluDivide_of_ne_zero h, finishStage, affectsControlFlow],
          .divide a ha h⟩
    | multiply a =>
      have ha : a < memorySize := by simpa [Instr.checksAddressFirst, Instr.operand] using hr
      exact ⟨_, by simp [exec, execMultiply, aluStage, ha, finishStage, affectsControlFlow], .multiply a ha⟩
    | jump a => exact ⟨_, by simp [exec, execJump, finishStage, affectsControlFlow, jumpTarget], .jump a⟩
    | jumpIfNegative a =>
      by_cases h : s.acc.toInt < 0
      · exact ⟨_, execJumpIfNegative_taken h a, .jumpIfNegativeTaken a h⟩
      · exact ⟨_, execJumpIfNegative_not_taken h a, .jumpIfNegativeNotTaken a h⟩
    | jumpIfZero a =>
      by_cases h : s.acc = 0
      · exact ⟨_, execJumpIfZero_taken h a, .jumpIfZeroTaken a h⟩
      · exact ⟨_, execJumpIfZero_not_taken h a, .jumpIfZeroNotTaken a h⟩
    | halt a => exact ⟨_, by simp [exec, execHalt, finishStage, affectsControlFlow, haltAdvancesPc], .halt a⟩

/-- The inversion: a next state of `exec` is one of the cases of `ExecResult`. -/
theorem exec_cases {i : Instr} {s t : State} (h : exec i s = .next t) : ExecResult s i t := by
  obtain ⟨u, hu, hres⟩ := exec_result i s
  rw [hu] at h
  cases h
  exact hres

/-- The other direction: in each of the cases `exec` gives that state. -/
theorem exec_of_result {i : Instr} {s t : State} (h : ExecResult s i t) : exec i s = .next t := by
  obtain ⟨u, hu, hres⟩ := exec_result i s
  rw [hu]
  congr 1
  cases h <;> cases hres <;> simp_all [Instr.checksAddressFirst, Instr.operand] <;> omega

end Sys2Proof.Machine
end

