-- ==== Sys2Proof/Laws/PerInstr.lean ====
section
/-! SUPPORT. Facts about each instruction as syntax, one lemma per constructor.
Family `WordRange`: the word of a well-formed instruction lies in the range its row of the opcode table gives it
(30_encoding.md R54, R60). -/

namespace Sys2Proof.Laws.WordRange

/-- `encode i` lies between the row's `word_min` and `word_max`, and its two low digits are the operand. -/
def Statement (i : Instr) : Prop :=
  i.wf = true → (encode i).toInt = i.opcode * 100 + i.operand ∧
    i.opcode * 100 ≤ (encode i).toInt ∧ (encode i).toInt ≤ i.opcode * 100 + 99

theorem of_wf (i : Instr) : Statement i := by
  intro h
  have ha := (Instr.wf_iff i).mp h
  have he := toInt_encode h
  simp only [operandModulus] at ha he
  push_cast at he
  omega

theorem read (a : Nat) : Statement (.read a) := of_wf _
theorem write (a : Nat) : Statement (.write a) := of_wf _
theorem load (a : Nat) : Statement (.load a) := of_wf _
theorem store (a : Nat) : Statement (.store a) := of_wf _
theorem add (a : Nat) : Statement (.add a) := of_wf _
theorem subtract (a : Nat) : Statement (.subtract a) := of_wf _
theorem divide (a : Nat) : Statement (.divide a) := of_wf _
theorem multiply (a : Nat) : Statement (.multiply a) := of_wf _
theorem jump (a : Nat) : Statement (.jump a) := of_wf _
theorem jumpIfNegative (a : Nat) : Statement (.jumpIfNegative a) := of_wf _
theorem jumpIfZero (a : Nat) : Statement (.jumpIfZero a) := of_wf _
theorem halt (a : Nat) : Statement (.halt a) := of_wf _

end Sys2Proof.Laws.WordRange
end

