-- ==== Sys2Proof/Laws/Step.lean ====
section
/-! SUPPORT. Everything `step` can do, said once as a relation over `ExecResult` (Laws/Exec.lean): the engine's two
failing stages, an executed instruction, an idle halted engine, a host operation served. -/

namespace Sys2Proof.Machine

theorem step_of_running {s : State} (h : s.running = true) : step s = engineStep s := if_pos h

theorem step_of_halted {s : State} (h : s.running = false) : step s = serveHost s := by
  simp [step, h]

theorem hostOperation_of_halted {s : State} (h : s.running = false) (op : HostOp) :
    hostOperation op s = .next (hostPerform op s) := by
  simp [hostOperation, h]

theorem runFetched_of_ok {w : Word} {i : Instr} (h : decode w = .ok i) (s : State) :
    runFetched w s = exec i (s.setIr w) := by
  simp [runFetched, h]

theorem runFetched_of_error {w : Word} {r : DecodeReject} (h : decode w = .error r) (s : State) :
    runFetched w s = .next (raiseRunError .unknownOpcode (s.setIr w)) := by
  simp [runFetched, h]

theorem engineStep_of_fetched {s : State} (h : s.pc < memorySize) :
    engineStep s = runFetched (s.mem.cell s.pc) s := by
  simp [engineStep, h]

theorem engineStep_of_fetch_fails {s : State} (h : memorySize ≤ s.pc) :
    engineStep s = .next (raiseRunError .addressOutOfRange s) := by
  simp [engineStep, Nat.not_lt.mpr h]

/-- `StepResult s t`: one transition takes `s` to `t`. -/
inductive StepResult (s : State) : State → Prop where
  | fetchFails (hr : s.running = true) (hp : memorySize ≤ s.pc) :
    StepResult s (raiseRunError .addressOutOfRange s)
  | unknownOpcode (hr : s.running = true) (hp : s.pc < memorySize) (r : DecodeReject)
    (hd : decode (s.mem.cell s.pc) = .error r) :
    StepResult s (raiseRunError .unknownOpcode (s.setIr (s.mem.cell s.pc)))
  | executes (hr : s.running = true) (hp : s.pc < memorySize) (i : Instr) (hd : decode (s.mem.cell s.pc) = .ok i)
    (t : State) (he : ExecResult (s.setIr (s.mem.cell s.pc)) i t) : StepResult s t
  | idle (hr : s.running = false) (hh : s.hostOps = []) : StepResult s s
  | serves (hr : s.running = false) (op : HostOp) (rest : List HostOp) (hh : s.hostOps = op :: rest) :
    StepResult s (hostPerform op (s.setHostOps rest))

/-- `step` always answers a next state, and it is one of these. -/
theorem step_result (s : State) : ∃ t, step s = .next t ∧ StepResult s t := by
  cases hr : s.running with
  | true =>
    rw [step_of_running hr]
    by_cases hp : s.pc < memorySize
    · rw [engineStep_of_fetched hp]
      cases hd : decode (s.mem.cell s.pc) with
      | ok i =>
        rw [runFetched_of_ok hd]
        obtain ⟨t, ht, he⟩ := exec_result i (s.setIr (s.mem.cell s.pc))
        exact ⟨t, ht, .executes hr hp i hd t he⟩
      | error r => exact ⟨_, runFetched_of_error hd s, .unknownOpcode hr hp r hd⟩
    · have hp' : memorySize ≤ s.pc := Nat.not_lt.mp hp
      exact ⟨_, engineStep_of_fetch_fails hp', .fetchFails hr hp'⟩
  | false =>
    rw [step_of_halted hr]
    cases hh : s.hostOps with
    | nil => exact ⟨s, by simp [serveHost, hh], .idle hr hh⟩
    | cons op rest =>
      exact ⟨_, by simp only [serveHost, hh]; exact hostOperation_of_halted (by simpa using hr) op,
        .serves hr op rest hh⟩

/-- The inversion of `step`. -/
theorem step_cases {s t : State} (h : step s = .next t) : StepResult s t := by
  obtain ⟨u, hu, hres⟩ := step_result s
  rw [hu] at h
  cases h
  exact hres

/-- An instruction that was decoded has an operand that fits (30_encoding.md R53). -/
theorem operand_lt_of_decode {w : Word} {i : Instr} (h : decode w = .ok i) : i.operand < memorySize := by
  obtain ⟨_, _, ha⟩ := decode_fields h
  have : w.toInt % operandModulus < operandModulus := Int.emod_lt_of_pos _ (by decide)
  simp only [operandModulus, memorySize] at *
  omega

/-! ### The word placed at the fetch -/

theorem placeAtFetch_pc_lt (w : Word) (s : State) : (placeAtFetch w s).pc < memorySize := by
  simp only [placeAtFetch]
  split
  · assumption
  · decide

theorem placeAtFetch_wf {s : State} (h : s.mem.wf = true) (w : Word) : (placeAtFetch w s).mem.wf = true :=
  Memory.wf_store h (placeAtFetch_pc_lt w s) w

/-- The very next step of the machine with `w` placed fetches and runs `w`. -/
theorem step_placeAtFetch {s : State} (h : s.mem.wf = true) (w : Word) :
    step (placeAtFetch w s) = runFetched w (placeAtFetch w s) := by
  rw [step_of_running rfl, engineStep_of_fetched (placeAtFetch_pc_lt w s)]
  congr 1
  exact Memory.cell_store_same h _ w

/-! ### The host's operations on memory keep its canonical form -/

theorem hostLoad_wf {s : State} (h : s.mem.wf = true) (image : List Word) : (hostLoad image s).mem.wf = true := by
  unfold hostLoad
  split
  · exact Memory.wf_ofImage (by omega)
  · exact h

theorem hostWriteMemory_wf {s : State} (h : s.mem.wf = true) (a : Int) (v : Word) :
    (hostWriteMemory a v s).mem.wf = true := by
  cases hv : validAddress a with
  | true =>
    simp only [hostWriteMemory, memWrite_of_valid hv]
    exact Memory.wf_store h (by have := (validAddress_iff a).mp hv; omega) v
  | false =>
    simp only [hostWriteMemory, memWrite_of_not_valid hv]
    exact h

theorem hostReadMemory_mem (a : Int) (s : State) : (hostReadMemory a s).mem = s.mem := by
  unfold hostReadMemory
  split <;> rfl

theorem hostPerform_wf {s : State} (h : s.mem.wf = true) (op : HostOp) : (hostPerform op s).mem.wf = true := by
  cases op with
  | reset => rfl
  | load image => exact hostLoad_wf h image
  | execute => exact h
  | readMemory a => rw [hostPerform, hostReadMemory_mem]; exact h
  | writeMemory a v => exact hostWriteMemory_wf h a v
  | dumpMemory => exact h
  | dumpRegisters => exact h

end Sys2Proof.Machine
end

