-- ==== Sys2Proof/Laws/Safety.lean ====
section
/-! SUPPORT. The terms of Safety.lean: the next instruction, what one step of a run can do to what leaves and enters
the machine, the executor, and the fields of an observation. -/

namespace Sys2Proof.Machine

/-! ### The next instruction -/

theorem nextInstr_of_decode {s : State} {i : Instr} (hp : s.pc < memorySize) (hd : decode (s.mem.cell s.pc) = .ok i) :
    s.nextInstr = some i := by
  simp [State.nextInstr, hp, hd]

theorem nextInstr_of_fetch_fails {s : State} (hp : memorySize ≤ s.pc) : s.nextInstr = none := by
  simp [State.nextInstr, Nat.not_lt.mpr hp]

theorem nextInstr_of_reject {s : State} {r : DecodeReject} (hp : s.pc < memorySize)
    (hd : decode (s.mem.cell s.pc) = .error r) : s.nextInstr = none := by
  simp [State.nextInstr, hp, hd]

/-- The inversion: the next instruction is what the word at the pc decodes to. -/
theorem decode_of_nextInstr {s : State} {i : Instr} (h : s.nextInstr = some i) :
    s.pc < memorySize ∧ decode (s.mem.cell s.pc) = .ok i := by
  by_cases hp : s.pc < memorySize
  · cases hd : decode (s.mem.cell s.pc) with
    | ok j =>
      rw [nextInstr_of_decode hp hd] at h
      cases h
      exact ⟨hp, rfl⟩
    | error r => simp [nextInstr_of_reject hp hd] at h
  · simp [nextInstr_of_fetch_fails (Nat.not_lt.mp hp)] at h

/-! ### Counting inputs -/

@[simp] theorem inputCount_nil : inputCount [] = 0 := rfl

@[simp] theorem inputCount_value (v : Word) (l : List ReadAnswer) : inputCount (.value v :: l) = inputCount l + 1 :=
  List.countP_cons_of_pos rfl

@[simp] theorem inputCount_fail (l : List ReadAnswer) : inputCount (.fail :: l) = inputCount l :=
  List.countP_cons_of_neg (by decide)

@[simp] theorem inputCount_append (l l' : List ReadAnswer) : inputCount (l ++ l') = inputCount l + inputCount l' :=
  List.countP_append

@[simp] theorem inputCount_values (values : List Word) : inputCount (values.map .value) = values.length := by
  induction values with
  | nil => rfl
  | cons v values ih => simp [ih]

/-- A step that runs no READ consumes no input. -/
theorem consumesInput_of_not_read {s : State} (h : ∀ a, s.nextInstr ≠ some (.read a)) : s.consumesInput = false := by
  unfold State.consumesInput
  split
  · exact absurd ‹_› (h _)
  · rfl
  · rfl

/-- A step that runs a READ consumes an input exactly if the answer ready for it is a word. -/
theorem consumesInput_of_read {s : State} {a : Nat} (h : s.nextInstr = some (.read a)) :
    s.consumesInput = s.inputs.head?.any ReadAnswer.isInput := by
  simp [State.consumesInput, h]

/-! ### One step of a run -/

/-- What one step of a running machine does to the inputs and to the output: the words taken are the oldest inputs, as
many as `consumesInput` says; a `Fail` behind them is taken only by the step that ends the run with `IOFailure`; the
output only grows. -/
theorem step_streams {s t : State} (hr : s.running = true) (h : step s = .next t) :
    (∃ values : List Word, values.length = (if s.consumesInput then 1 else 0) ∧
      (s.inputs = values.map .value ++ t.inputs ∨
        (t.running = false ∧ t.hostResults = s.hostResults ++ [.runEnded (.failed .ioFailure)] ∧
          s.inputs = values.map .value ++ .fail :: t.inputs))) ∧
    ∃ out, t.output = s.output ++ out := by
  have none_taken : (∀ a, s.nextInstr ≠ some (.read a)) → t.inputs = s.inputs →
      ∃ values : List Word, values.length = (if s.consumesInput then 1 else 0) ∧
        (s.inputs = values.map .value ++ t.inputs ∨
          (t.running = false ∧ t.hostResults = s.hostResults ++ [.runEnded (.failed .ioFailure)] ∧
            s.inputs = values.map .value ++ .fail :: t.inputs)) :=
    fun hn hi => ⟨[], by simp [consumesInput_of_not_read hn], .inl hi.symm⟩
  cases step_cases h with
  | fetchFails _ hp => exact ⟨none_taken (by simp [nextInstr_of_fetch_fails hp]) rfl, [], by simp⟩
  | unknownOpcode _ hp r hd => exact ⟨none_taken (by simp [nextInstr_of_reject hp hd]) rfl, [], by simp⟩
  | executes _ hp i hd _ he =>
    have hn := nextInstr_of_decode hp hd
    cases he with
    | readOutOfRange a v rest hi ha | readStores a v rest hi ha =>
      rw [State.setIr_inputs] at hi
      exact ⟨⟨[v], by simp [consumesInput_of_read hn, hi, ReadAnswer.isInput], .inl hi⟩, [], by simp⟩
    | readFails a rest hi =>
      rw [State.setIr_inputs] at hi
      exact ⟨⟨[], by simp [consumesInput_of_read hn, hi, ReadAnswer.isInput], .inr ⟨rfl, rfl, hi⟩⟩, [], by simp⟩
    | readWaits a hi =>
      rw [State.setIr_inputs] at hi
      exact ⟨⟨[], by simp [consumesInput_of_read hn, hi], .inl rfl⟩, [], by simp⟩
    | outOfRange _ hi ha => exact absurd (operand_lt_of_decode hd) (Nat.not_lt.mpr ha)
    | writeEmits a ha hw => exact ⟨none_taken (by simp [hn]) rfl, [_], rfl⟩
    | _ => exact ⟨none_taken (by simp [hn]) rfl, [], (List.append_nil _).symm⟩
  | idle hr' | serves hr' => simp [hr] at hr'

/-- What one step of a running machine reports and returns: nothing while it goes on, and at the end one outcome, with
one report exactly if it failed. -/
theorem step_outcome {s t : State} (hr : s.running = true) (h : step s = .next t) :
    (t.running = true ∧ t.reports = s.reports ∧ t.hostResults = s.hostResults) ∨
    (t.running = false ∧ t.reports = s.reports ∧ t.hostResults = s.hostResults ++ [.runEnded .completed]) ∨
    (t.running = false ∧ ∃ e, t.reports = s.reports ++ [e] ∧
      t.hostResults = s.hostResults ++ [.runEnded (.failed e)]) := by
  cases step_cases h with
  | fetchFails _ hp => exact .inr (.inr ⟨rfl, _, rfl, rfl⟩)
  | unknownOpcode _ hp r hd => exact .inr (.inr ⟨rfl, _, rfl, rfl⟩)
  | executes _ hp i hd _ he =>
    cases he with
    | halt a => exact .inr (.inl ⟨rfl, rfl, rfl⟩)
    | readFails | readOutOfRange | outOfRange | writeFails | divideByZero => exact .inr (.inr ⟨rfl, _, rfl, rfl⟩)
    | _ => exact .inl ⟨hr, rfl, rfl⟩
  | idle hr' | serves hr' => simp [hr] at hr'

/-! ### The executor -/

theorem runUntilHalted_of_halted {s : State} (h : s.running = false) (fuel : Nat) : runUntilHalted fuel s = some s := by
  cases fuel <;> simp [runUntilHalted, h]

theorem runUntilHalted_of_step {s t : State} (hr : s.running = true) (h : step s = .next t) (fuel : Nat) :
    runUntilHalted (fuel + 1) s = runUntilHalted fuel t := by
  simp [runUntilHalted, hr, h]

theorem runUntilHalted_zero_of_running {s : State} (h : s.running = true) : runUntilHalted 0 s = none := by
  simp [runUntilHalted, h]

/-! ### The fields of an observation -/

@[simp] theorem runOutcome_runEnded (o : RunOutcome) (l : List HostResult) :
    runOutcome (.runEnded o :: l) = some o := rfl
@[simp] theorem runOutcome_nil : runOutcome [] = none := rfl
@[simp] theorem State.observe_outcome (s start : State) (n : Nat) :
    (s.observe start n).outcome = runOutcome (s.hostResults.drop start.hostResults.length) := rfl
@[simp] theorem State.observe_report (s start : State) (n : Nat) :
    (s.observe start n).report = (s.reports.drop start.reports.length).head? := rfl
@[simp] theorem State.observe_output (s start : State) (n : Nat) :
    (s.observe start n).output = s.output.drop start.output.length := rfl
@[simp] theorem State.observe_inputsConsumed (s start : State) (n : Nat) :
    (s.observe start n).inputsConsumed = n := rfl
@[simp] theorem State.observe_registers (s start : State) (n : Nat) :
    (s.observe start n).registers = .registers s.acc s.pc s.ir s.running := rfl
@[simp] theorem State.observe_memory (s start : State) (n : Nat) :
    (s.observe start n).memory = .cells s.mem.dump := rfl

end Sys2Proof.Machine
end

