-- ==== Sys2Proof/Tests/Slice0.lean ====
section
/-! SUPPORT. Small tests of one step each, with their expected results taken from the spec's vectors (95_test_vectors.md;
the vector's name stands in each comment), the smoke test of WellFormed, the decoding of one written-out word per
instruction, and a witness for the hypotheses of every statement. -/

namespace Sys2Proof.Tests

open Sys2Proof.Machine

/-- A running machine: the word `w` at the pc, `v` in the cell 50, the accumulator `x`. -/
def at50 (p : Nat) (x w v : Word) : State :=
  { State.reset with running := true, pc := p, acc := x, mem := (Memory.store [] 50 v).store p w }

/-- A field of the next state, if there is one. -/
def after {α : Type} (f : State → α) : Host.Outcome State Fault Refusal → Option α
  | .next t => some (f t)
  | .fault _ => none
  | .refused _ => none

/-- The accumulator, the pc and the run flag: what an arithmetic vector lists. -/
def core (s : State) : Word × Nat × Bool := (s.acc, s.pc, s.running)

/-! ### WellFormed refuses a three-digit operand, in each of its twelve checks (R52) -/

theorem test_wf_refuses_each_ill_formed_term :
    [Instr.read 100, .write 100, .load 100, .store 100, .add 100, .subtract 100, .divide 100, .multiply 100, .jump 100,
      .jumpIfNegative 100, .jumpIfZero 100, .halt 100].map Instr.wf = List.replicate 12 false := by decide

theorem test_wf_accepts_the_last_operand : (Instr.store 99).wf = true := by decide

/-! ### Decode: a word written out from the encoding of each instruction (R51, R54; V1) -/

theorem test_decode_read : decode 1007 = .ok (.read 7) := by decide
theorem test_decode_write : decode 1109 = .ok (.write 9) := by decide
theorem test_decode_load : decode 2007 = .ok (.load 7) := by decide
theorem test_decode_store : decode 2109 = .ok (.store 9) := by decide
theorem test_decode_add : decode 3008 = .ok (.add 8) := by decide
theorem test_decode_subtract : decode 3110 = .ok (.subtract 10) := by decide
theorem test_decode_divide : decode 3211 = .ok (.divide 11) := by decide
theorem test_decode_multiply : decode 3321 = .ok (.multiply 21) := by decide
theorem test_decode_jump : decode 4002 = .ok (.jump 2) := by decide
theorem test_decode_jumpIfNegative : decode 4107 = .ok (.jumpIfNegative 7) := by decide
theorem test_decode_jumpIfZero : decode 4210 = .ok (.jumpIfZero 10) := by decide
theorem test_decode_halt : decode 4399 = .ok (.halt 99) := by decide
/-- V1: opcode 110 is not READ; a negative word is no instruction. -/
theorem test_decode_rejects : decode 11007 = .error (.unknownOpcode 110) ∧
    decode (-1007) = .error (.unknownOpcode (-10)) ∧ decode 0 = .error (.unknownOpcode 0) := by decide
theorem test_encode_store : encode (.store 9) = 2109 := by decide
theorem test_decodeTableWord : decodeTableWord 16 4300 = some (.halt 0) := by decide
theorem test_dispatch_names : (dispatch 33).map (fun mk => (mk 0).variantName) = some "MULTIPLY" := by decide

/-! ### One step of each instruction -/

/-- R71's example and V2.1: the value delivered goes to the cell, signed. -/
theorem test_read_stores : after (fun t => (t.mem.cell 7, t.inputs, core t))
    (step { at50 0 9 1007 0 with inputs := [.value (-12), .fail] }) = some (-12, [.fail], 9, 1, true) := by decide
/-- V2.7: READ overwrites its own cell after it has been fetched. -/
theorem test_read_over_itself : after (fun t => (t.mem.cell 0, t.ir, core t))
    (step { at50 0 9 1000 0 with inputs := [.value 4300] }) = some (4300, 1000, 9, 1, true) := by decide
/-- V2.2: a failed read changes nothing but `ir` and `running`. -/
theorem test_read_fails : after (fun t => (t.mem.cell 5, t.reports, t.ir, core t))
    (step { at50 0 0 1005 0 with inputs := [.fail] }) = some (0, [.ioFailure], 1005, 0, 0, false) := by decide
/-- V2.8: WRITE 00 at address 0 emits its own word. -/
theorem test_write_emits : after (fun t => (t.output, core t)) (step (at50 0 0 1100 0)) =
    some ([1100], 0, 1, true) := by decide
/-- V2.4: a failed write appends nothing. -/
theorem test_write_fails : after (fun t => (t.output, t.reports, core t))
    (step { at50 0 0 1150 9 with writeAnswers := [.fail] }) = some ([], [.ioFailure], 0, 0, false) := by decide
/-- V3.1: a full-range word is copied unchanged. -/
theorem test_load_min : after core (step (at50 0 7 2050 (-2147483648))) = some (-2147483648, 1, true) := by decide
/-- V3.2: LOAD of its own cell gives its own word. -/
theorem test_load_self : after core (step (at50 0 0 2000 0)) = some (2000, 1, true) := by decide
/-- V3.4: STORE to the last cell leaves the accumulator. -/
theorem test_store_last : after (fun t => (t.mem.cell 99, core t)) (step (at50 1 8 2199 0)) =
    some (8, 8, 2, true) := by decide
/-- V3.6: STORE 00 of 0 over itself: the canonical memory is empty again. -/
theorem test_store_over_itself : after (fun t => (t.mem, core t)) (step (at50 0 0 2100 0)) =
    some ([], 0, 1, true) := by decide
/-- V4.3. -/
theorem test_add_wraps : after core (step (at50 0 2147483647 3050 1)) = some (-2147483648, 1, true) := by decide
/-- V4.7: the order is `acc - m`. -/
theorem test_subtract_order : after core (step (at50 0 2 3150 5)) = some (-3, 1, true) := by decide
/-- V4.11. -/
theorem test_subtract_wraps : after core (step (at50 0 0 3150 (-2147483648))) = some (-2147483648, 1, true) := by decide
/-- V4.18. -/
theorem test_multiply_wraps : after core (step (at50 0 46341 3350 46341)) = some (-2147479015, 1, true) := by decide
/-- V4.14. -/
theorem test_multiply_signs : after core (step (at50 0 (-6) 3350 7)) = some (-42, 1, true) := by decide
/-- V4.26 and V4.27: toward zero. -/
theorem test_divide_truncates : after core (step (at50 0 (-7) 3250 2)) = some (-3, 1, true) ∧
    after core (step (at50 0 7 3250 (-2))) = some (-3, 1, true) := by decide
/-- V4.35 and V4.33. -/
theorem test_divide_edges : after core (step (at50 0 (-2147483648) 3250 (-1))) = some (-2147483648, 1, true) ∧
    after (fun t => (t.reports, core t)) (step (at50 3 5 3250 0)) = some ([.divisionByZero], 5, 3, false) := by decide
/-- V5.1. -/
theorem test_jump : after core (step (at50 4 1 4007 0)) = some (1, 7, true) := by decide
/-- V5.6 and V5.7. -/
theorem test_jumpIfNegative : after core (step (at50 4 (-2147483648) 4107 0)) = some (-2147483648, 7, true) ∧
    after core (step (at50 4 0 4107 0)) = some (0, 5, true) := by decide
/-- V5.9 and V5.12. -/
theorem test_jumpIfZero : after core (step (at50 4 0 4207 0)) = some (0, 7, true) ∧
    after core (step (at50 99 1 4200 0)) = some (1, 100, true) := by decide
/-- V5.14, V5.15: the operand is ignored, the pc advances, `execute` returns `Completed`. -/
theorem test_halt : after (fun t => (t.reports, t.hostResults, core t)) (step (at50 6 3 4399 0)) =
    some ([], [.runEnded .completed], 3, 7, false) := by decide

/-! ### The engine and the host -/

/-- P5, step 3: a failed fetch leaves `ir`. -/
theorem test_fetch_off_the_end : after (fun t => (t.ir, t.reports, core t))
    (step { at50 0 4099 0 0 with pc := 100, ir := 2000 }) = some (2000, [.addressOutOfRange], 4099, 100, false) := by
  decide
/-- T6: an unknown opcode. -/
theorem test_unknown_opcode : after (fun t => (t.ir, t.reports, core t)) (step (at50 0 5 9950 8)) =
    some (9950, [.unknownOpcode], 5, 0, false) ∧
    after State.hostResults (step (at50 0 5 9950 8)) = some [.runEnded (.failed .unknownOpcode)] := by decide
/-- V6.5 and V6.6: bad addresses are the host's errors. -/
theorem test_host_bad_address :
    after State.hostResults (hostOperation (.readMemory (-1)) State.reset) = some [.rejected .addressOutOfRange] ∧
    after State.hostResults (hostOperation (.writeMemory 100 5) State.reset) = some [.rejected .addressOutOfRange] := by
  decide
/-- T5: an image of the wrong length is rejected. -/
theorem test_host_load_short : after (fun t => (t.mem, t.hostResults))
    (hostOperation (.load (List.replicate 99 4300)) State.reset) = some ([], [.rejected .imageLengthMismatch]) := by
  decide
/-- R173: a pending `execute` is performed by one transition of the halted machine. -/
theorem test_host_execute : after (fun t => (t.hostOps, core t))
    (step { State.reset with acc := 7, pc := 7, hostOps := [.execute] }) = some ([], 7, 0, true) := by decide
/-- The very next step runs the word placed. -/
theorem test_withFetchWord : after core (step (State.reset.withFetchWord 16 4007)) = some (0, 7, true) := by decide
/-- R145. -/
theorem test_codes : [RunOutcome.completed, .failed .unknownOpcode, .failed .divisionByZero, .failed .addressOutOfRange,
    .failed .ioFailure].map RunOutcome.code = [0, 1, 2, 3, 4] := by decide

/-! ### Witnesses: for every statement, a state and operands that meet its hypotheses, clause by clause -/

/-- DispatchIsTheTwelveEntryTable, UnknownOpcodeLeavesTheRestUntouched: an opcode off the table, and a running machine
about to fetch one. -/
theorem witness_unknown_opcode : (44 : Int) ∉ [10, 11, 20, 21, 30, 31, 32, 33, 40, 41, 42, (43 : Int)] ∧
    (at50 99 0 4400 0).running = true ∧ (at50 99 0 4400 0).pc < memorySize ∧
    (dispatch (opcodeField ((at50 99 0 4400 0).mem.cell 99))).isNone = true := by decide

/-- DecodeOfEncodeIsTheInstruction, at both ends of the operand's range. -/
theorem witness_wf : (Instr.divide 0).wf = true ∧ (Instr.divide 99).wf = true := by decide

/-- EncodeOfDecodeIsTheWord, DecoderRoundingIsUnobservable: a word that decodes. -/
theorem witness_decodes : decode 3299 = .ok (.divide 99) := by decide

/-- EveryWordIsItsTwoFields: words of both signs. -/
theorem witness_word_signs : 0 ≤ (4399 : Word).toInt ∧ (-1007 : Word).toInt ≤ 0 := by decide

/-- IllegalWordsRaiseUnknownOpcode. -/
theorem witness_illegal_word : (at50 0 0 1200 0).running = true ∧ (at50 0 0 1200 0).pc < memorySize ∧
    decode ((at50 0 0 1200 0).mem.cell 0) = .error (.unknownOpcode 12) := by decide

/-- ValidatorGuardsEveryAccess: its five clauses (a last valid cell; the first invalid addresses above and below; an
operand out of range with an input ready; a running machine off the end; a halted machine). -/
theorem witness_validator : (99 < memorySize ∧ State.reset.mem.wf = true) ∧
    ¬ ((0 : Int) ≤ 100 ∧ (100 : Int) < memorySize) ∧ ¬ ((0 : Int) ≤ -1 ∧ (-1 : Int) < memorySize) ∧
    (memorySize ≤ 100 ∧ { State.reset with inputs := [ReadAnswer.value 3] }.inputs = .value 3 :: []) ∧
    ({ State.reset with running := true, pc := 100 }.running = true ∧ memorySize ≤ 100) ∧
    State.reset.running = false := by decide

/-- CanonicalMemoriesWithEqualCellsAreEqual. -/
theorem witness_canonical : Memory.wf [(7, 3), (99, 1)] = true ∧ Memory.wf ((Memory.store [(7, 3)] 99 1)) = true ∧
    ∀ a, a < memorySize → Memory.cell [(7, 3), (99, 1)] a = (Memory.store [(7, 3)] 99 1).cell a := by
  refine ⟨by decide, by decide, fun a _ => rfl⟩

/-- NextFetchSeesEveryWrite: a cell, a canonical memory and an input; a full image; a STORE and a READ over
themselves. -/
theorem witness_fetch_sees : (99 < memorySize ∧ (at50 0 1 1000 5).mem.wf = true ∧
    { at50 0 1 1000 5 with inputs := [.value 4300] }.inputs = .value 4300 :: []) ∧
    (List.replicate 100 (4300 : Word)).length = memorySize ∧ State.reset.running = false ∧
    ((at50 1 4300 2101 0).running = true ∧ (at50 1 4300 2101 0).pc < memorySize ∧ (at50 1 4300 2101 0).mem.wf = true ∧
      decode ((at50 1 4300 2101 0).mem.cell 1) = .ok (.store 1)) ∧
    ((at50 99 0 1099 0).running = true ∧ (at50 99 0 1099 0).pc < memorySize ∧ (at50 99 0 1099 0).mem.wf = true ∧
      decode ((at50 99 0 1099 0).mem.cell 99) = .ok (.read 99) ∧
      { at50 99 0 1099 0 with inputs := [.value 4300] }.inputs = .value 4300 :: []) := by decide

/-- ReadStoresTheInput, StoringInstructionsFrame, FailedIoRaisesIoFailure (its first clause): READ answered a value, and
answered `Fail`. -/
theorem witness_read : 99 < memorySize ∧ { at50 0 0 1099 0 with inputs := [.value 4, .fail] }.inputs = .value 4 :: [.fail] ∧
    { at50 0 0 1099 0 with inputs := [.fail] }.inputs = .fail :: [] ∧ (at50 0 0 1099 0).mem.wf = true ∧
    (after State.pc (exec (.read 99) { at50 0 0 1099 0 with inputs := [.value 4] })).isSome = true := by decide

/-- UnansweredReadWaitsForEver, LateAnswerResumesTheRead: a READ with no answer. -/
theorem witness_waiting_read : (at50 0 0 1005 0).running = true ∧ (at50 0 0 1005 0).pc < memorySize ∧
    decode ((at50 0 0 1005 0).mem.cell 0) = .ok (.read 5) ∧ (at50 0 0 1005 0).inputs = [] := by decide

/-- WriteEmitsTheCell, FailedIoRaisesIoFailure (its second clause), OutputAndControlFrame. -/
theorem witness_write : 99 < memorySize ∧ (at50 0 0 1199 0).writeAnswers.headD (at50 0 0 1199 0).writeRest = .ok ∧
    { at50 0 0 1199 0 with writeAnswers := [.fail] }.writeAnswers.headD .ok = .fail ∧
    (after State.pc (exec (.write 99) (at50 0 0 1199 0))).isSome = true ∧
    (after State.pc (exec (.jump 99) (at50 0 0 1199 0))).isSome = true := by decide

/-- LoadCopiesTheCell, StoreWritesTheAccumulator, AddWrapsIntoTheAccumulator, SubtractWrapsIntoTheAccumulator,
MultiplyWrapsIntoTheAccumulator, JumpWritesThePc, HaltEndsTheRunCompleted: the last operand in range and the first out. -/
theorem witness_operands : 99 < memorySize ∧ memorySize ≤ 100 ∧ (at50 0 1 2199 0).mem.wf = true := by decide

/-- DivideTruncatesIntoTheAccumulator, QuotientLeavesATruncatedRemainder: an ordinary quotient, and the one that does not
fit. -/
theorem witness_divide : 50 < memorySize ∧ (at50 0 (-7) 3250 2).mem.cell 50 ≠ 0 ∧
    ¬ ((at50 0 (-7) 3250 2).acc.toInt = minInt ∧ ((at50 0 (-7) 3250 2).mem.cell 50).toInt = -1) ∧
    (after State.acc (exec (.divide 50) (at50 0 (-7) 3250 2))).isSome = true ∧
    ((at50 0 (-2147483648) 3250 (-1)).acc.toInt = minInt ∧
      ((at50 0 (-2147483648) 3250 (-1)).mem.cell 50).toInt = -1) := by decide

/-- ZeroDivisorRaisesDivisionByZero. -/
theorem witness_zero_divisor : (at50 0 5 3250 0).running = true ∧
    (at50 0 5 3250 0).nextInstr = some (.divide 50) ∧ (at50 0 5 3250 0).mem.cell 50 = 0 ∧
    after State.reports (step (at50 0 5 3250 0)) = some ((at50 0 5 3250 0).reports ++ [.divisionByZero]) := by decide

/-- JumpIfNegativeTestsTheSign, JumpIfZeroTestsForZero: each test at its boundary. -/
theorem witness_accumulator_tests : (at50 0 (-1) 4107 0).acc.toInt < 0 ∧ 0 ≤ (at50 0 0 4107 0).acc.toInt ∧
    (at50 0 0 4207 0).acc.toInt = 0 ∧ (at50 0 1 4207 0).acc.toInt ≠ 0 := by decide

/-- AccumulatorInstructionsFrame: with a report and without one. -/
theorem witness_accumulator_frame :
    after State.reports (exec (.divide 50) (at50 0 5 3250 0)) = some [.divisionByZero] ∧
    after State.reports (exec (.add 50) (at50 0 5 3050 0)) = some [] := by decide

/-- StepRunsTheDecodedInstruction. -/
theorem witness_step_decoded : (at50 99 5 3050 0).running = true ∧ (at50 99 5 3050 0).pc < memorySize ∧
    decode ((at50 99 5 3050 0).mem.cell 99) = .ok (.add 50) := by decide

/-- FailedFetchHaltsTheRun; IrHoldsTheWordLastFetched, its three clauses; HostHasNoMoveDuringARun. -/
theorem witness_fetch_and_ir :
    ({ at50 0 0 0 0 with pc := 100 }.running = true ∧ memorySize ≤ { at50 0 0 0 0 with pc := 100 }.pc) ∧
    (after State.ir (step { at50 0 0 0 0 with pc := 100 })).isSome = true ∧
    (after State.ir (step (at50 0 0 4300 0))).isSome = true ∧
    (after State.ir (step { State.reset with ir := 5, hostOps := [.reset] })) = some 0 := by decide

/-- PcFollowsTheControllerTable: an error, a completed instruction, a waiting READ. -/
theorem witness_pc_controller :
    after State.reports (step (at50 0 5 3250 0)) = some [.divisionByZero] ∧
    ((at50 4 (-1) 4107 0).nextInstr = some (.jumpIfNegative 7) ∧ after State.reports (step (at50 4 (-1) 4107 0)) = some []) ∧
    ((at50 0 0 1005 0).nextInstr = some (.read 5) ∧ (at50 0 0 1005 0).inputs = [] ∧
      (after State.pc (step (at50 0 0 1005 0))).isSome = true) := by decide

/-- RunErrorsArePrecise: a step that reports, after a fetch and without one. -/
theorem witness_run_error : (at50 0 5 9950 8).running = true ∧
    after State.reports (step (at50 0 5 9950 8)) = some [.unknownOpcode] ∧
    after State.reports (step { at50 0 5 9950 8 with pc := 100 }) = some [.addressOutOfRange] := by decide

/-- EachRunErrorHasItsOneCause: each of the four causes. -/
theorem witness_error_causes :
    memorySize ≤ { at50 0 5 9950 8 with pc := 100 }.pc ∧
    (dispatch (opcodeField ((at50 0 5 9950 8).mem.cell 0))).isNone = true ∧
    ((at50 0 5 3250 0).nextInstr = some (.divide 50) ∧ (at50 0 5 3250 0).mem.cell 50 = 0) ∧
    ((at50 0 5 1050 0).nextInstr = some (.read 50) ∧ { at50 0 5 1050 0 with inputs := [.fail] }.inputs = .fail :: []) ∧
    ((at50 0 5 1150 0).nextInstr = some (.write 50) ∧
      { at50 0 5 1150 0 with writeRest := .fail }.writeAnswers.headD .fail = .fail) := by decide

/-- InvariantKeptByEveryStep, InvariantHoldsAlongEveryRun: a state that is not reset, at the end of memory. -/
theorem witness_invariant : (at50 99 5 3050 7).Inv ∧
    (after State.pc (step (at50 99 5 3050 7))) = some 100 :=
  ⟨⟨by decide, by decide⟩, by decide⟩

theorem witness_reaches : ∃ t, Reaches 1 (at50 99 5 3050 7) t :=
  let ⟨t, h, _⟩ := step_result (at50 99 5 3050 7)
  ⟨t, t, h, rfl⟩

/-- StepDependsOnlyOnStateAndAnswers: two machines that differ in what has left them. -/
theorem witness_same_cause : (at50 0 5 1150 7).SameCause { at50 0 5 1150 7 with
    output := [1, 2], reports := [.ioFailure], hostOps := [.reset] } ∧ (at50 0 5 1150 7).running = true :=
  ⟨⟨rfl, rfl, rfl, rfl, rfl, rfl, rfl, rfl⟩, rfl⟩

/-- OnlyReadTakesInputOnlyWriteEmits: a WRITE step. -/
theorem witness_write_step : (at50 0 5 1150 7).running = true ∧
    after State.output (step (at50 0 5 1150 7)) = some [7] := by decide

/-- RunningChangesOnlyByHaltErrorOrExecute: HALT, an error, a step that goes on, a start. -/
theorem witness_running_changes :
    after State.running (step (at50 0 5 4300 7)) = some false ∧ after State.running (step (at50 0 5 0 7)) = some false ∧
    after State.running (step (at50 0 5 3050 7)) = some true ∧
    after State.running (step { State.reset with hostOps := [.execute] }) = some true := by decide

/-- EveryEndedRunHasOneOutcome: a run that ends by HALT and one that ends by an error. -/
theorem witness_ended_run : (at50 0 5 4300 7).running = true ∧
    ((runUntilHalted 1 (at50 0 5 4300 7)).map State.hostResults) = some [.runEnded .completed] ∧
    ((runUntilHalted 1 (at50 0 5 0 7)).map State.hostResults) = some [.runEnded (.failed .unknownOpcode)] := by decide

/-- A machine with an earlier run behind it (a word written, a failure reported and returned), about to read into the
cell 50, write it and halt. -/
def secondRun (inputs : List ReadAnswer) : State :=
  { at50 0 7 1050 0 with
    mem := ((Memory.store [] 0 1050).store 1 1150).store 2 4300, inputs := inputs, output := [5]
    reports := [.ioFailure], hostResults := [.runEnded (.failed .ioFailure)] }

/-- R134: nothing of the earlier run is in the observation (R71, R72, R114 give the values). -/
theorem test_observe_completed :
    (observeRun 3 (secondRun [.value 9, .value 8])).map (fun o => (o.outcome, o.report, o.output, o.inputsConsumed,
      o.registers)) = some (some .completed, none, [9], 1, .registers 7 3 4300 false) := by decide

/-- V2.10: two READs, answered `Value(1)` and `Fail`: the run fails having consumed one input. -/
theorem test_observe_failed_read :
    (observeRun 2 { at50 0 0 1005 0 with mem := (Memory.store [] 0 1005).store 1 1006, inputs := [.value 1, .fail] }).map
      (fun o => (o.outcome, o.inputsConsumed, o.registers)) =
      some (some (.failed .ioFailure), 1, .registers 0 1 1006 false) := by decide

/-- R134, R144: the single report of the run itself. -/
theorem test_observe_failed :
    (observeRun 1 (secondRun [.fail])).map (fun o => (o.outcome, o.report, o.output)) =
      some (some (.failed .ioFailure), some .ioFailure, []) := by decide

/-- FinishedRunIsObservedAsStated: a run that waits for its input, gets it and ends by HALT. -/
theorem witness_finished_run : (secondRun []).running = true ∧
    ∃ t, Run (secondRun []) [.value 9] 1 t ∧ t.running = false := by
  obtain ⟨u, hu, _⟩ := step_result (collaboratorOffers (.value 9) (secondRun []))
  obtain ⟨v, hv, _⟩ := step_result u
  obtain ⟨t, ht, _⟩ := step_result v
  have hu' := congrArg (after id) hu
  have hv' := congrArg (after id) hv
  have ht' := congrArg (after id) ht
  simp only [after] at hu' hv' ht'
  cases hu'
  cases hv'
  cases ht'
  exact ⟨rfl, _, (((Run.begun.answered rfl (.value 9)).stepped rfl hu).stepped rfl hv).stepped rfl ht, rfl⟩

/-- The same, for a run that a `Fail` ends: no input consumed. -/
theorem witness_run_ended_by_fail : ∃ t, Run (secondRun [.fail]) [] 0 t ∧ t.running = false := by
  obtain ⟨t, ht, _⟩ := step_result (secondRun [.fail])
  have ht' := congrArg (after id) ht
  simp only [after] at ht'
  cases ht'
  exact ⟨_, Run.begun.stepped rfl ht, rfl⟩

/-- ExecutorFindsExactlyTheFinishedRuns, both directions: fuel that ends a run; and that run. -/
theorem witness_executor : (runUntilHalted 1 (at50 0 5 4300 7)).isSome = true ∧
    ∃ t, Run (at50 0 5 4300 7) [] 0 t ∧ t.running = false :=
  ⟨by decide, _, Run.begun.stepped (by decide) (exec_of_result (s := (at50 0 5 4300 7).setIr 4300) (.halt 0)), rfl⟩

/-- ObservationDependsOnlyOnStateAndAnswers: two machines with different pasts, whose runs end. -/
theorem witness_same_observation :
    (secondRun [.value 9]).SameCause { secondRun [.value 9] with output := [], reports := [], hostOps := [.reset] } ∧
    (secondRun [.value 9]).running = true ∧ (observeRun 3 (secondRun [.value 9])).isSome = true :=
  ⟨⟨rfl, rfl, rfl, rfl, rfl, rfl, rfl, rfl⟩, rfl, by decide⟩

/-- JumpToItselfNeverEnds. -/
theorem witness_jump_to_itself : (at50 4 0 4004 0).running = true ∧ (at50 4 0 4004 0).pc < memorySize ∧
    decode ((at50 4 0 4004 0).mem.cell 4) = .ok (.jump 4) := by decide

/-- RunningOffTheEndFails: an ordinary instruction at address 99. -/
theorem witness_off_the_end : (at50 99 0 2050 7).running = true ∧ (at50 99 0 2050 7).pc = 99 ∧
    (at50 99 0 2050 7).nextInstr = some (.load 50) ∧ after State.running (step (at50 99 0 2050 7)) = some true ∧
    (at50 99 0 2050 7).controllerPc (.load 50) = 100 ∧ ∀ a, Instr.load 50 ≠ .read a :=
  ⟨by decide, by decide, by decide, by decide, by decide, fun _ h => by cases h⟩

/-- HostResetGivesTheStateAtCreation, HostLoadReplacesMemoryWholesale (both lengths), HostExecuteStartsAtAddressZero,
HostReadsAndWritesOneCell, HostDumpsAreReadOnlySnapshots: a halted machine that an earlier run has left its marks on. -/
theorem witness_halted : { at50 7 7 4300 3 with running := false }.running = false ∧
    { at50 7 7 4300 3 with running := false }.mem.wf = true ∧ 99 < memorySize ∧
    (List.replicate 100 (0 : Word)).length = memorySize ∧ (List.replicate 101 (0 : Word)).length ≠ memorySize := by decide

/-- HostHasNoMoveDuringARun. -/
theorem witness_host_during_run : (at50 0 0 4300 0).running = true ∧
    (after State.hostOps (step { at50 0 0 4300 0 with hostOps := [.reset] })) = some [.reset] := by decide

/-- HaltedStepServesTheHost: with and without a request. -/
theorem witness_halted_step : State.reset.running = false ∧ State.reset.hostOps = [] ∧
    { State.reset with hostOps := [.dumpMemory, .execute] }.hostOps = .dumpMemory :: [.execute] := by decide

end Sys2Proof.Tests
end

/-! SUPPORT. 20_memory.md: the validator's two accesses by the range of the address, one running step on a decoded
word, the cell a fetch sees, and the two statements R31 and R42 assembled from them. -/

namespace Sys2Proof.Machine

/-! ### The validator's accesses -/

theorem validAddress_eq_false {a : Int} (h : ¬ (0 ≤ a ∧ a < memorySize)) : validAddress a = false :=
  Bool.eq_false_iff.mpr (mt (validAddress_iff a).mp h)

/-- The validated read of a cell just written through the validator. -/
theorem memRead_setMem_store_same {a : Nat} {s : State} (ha : a < memorySize) (hm : s.mem.wf = true) (v : Word) :
    memRead a (s.setMem (s.mem.store a v)) = some v := by
  rw [memRead_natCast, if_pos ha, State.setMem_mem, Memory.cell_store_same hm]

/-- A host read of a bad address changes nothing but the list of results. -/
theorem hostReadMemory_of_not_valid {a : Int} (h : validAddress a = false) (s : State) :
    hostReadMemory a s = s.answerHost (.rejected .addressOutOfRange) := by
  rw [hostReadMemory, memRead_of_not_valid h]

/-- A host write to a bad address changes nothing but the list of results. -/
theorem hostWriteMemory_of_not_valid {a : Int} (h : validAddress a = false) (v : Word) (s : State) :
    hostWriteMemory a v s = s.answerHost (.rejected .addressOutOfRange) := by
  rw [hostWriteMemory, memWrite_of_not_valid h]

theorem hostWriteMemory_of_lt {a : Nat} (h : a < memorySize) (v : Word) (s : State) :
    hostWriteMemory a v s = (s.setMem (s.mem.store a v)).answerHost .done := by
  rw [hostWriteMemory, memWrite_natCast, if_pos h]

theorem hostLoad_of_length {image : List Word} (h : image.length = memorySize) (s : State) :
    hostLoad image s = (s.setMem (Memory.ofImage image)).answerHost .done := if_pos h

/-- The seven instructions that check their operand before any other effect (READ takes its input first, D13). -/
theorem checksAddressFirst_of_mem (a : Nat) :
    ∀ i ∈ [Instr.write a, .load a, .store a, .add a, .subtract a, .multiply a, .divide a],
      Instr.checksAddressFirst i = true ∧ i.operand = a := by
  simp [Instr.checksAddressFirst, Instr.operand]

/-! ### One running step, and the cell a fetch sees -/

/-- Stages 1 to 3 of R124 on a word that decodes: `exec` runs with the fetched word already in `ir`. -/
theorem step_of_decode {s : State} {i : Instr} (hr : s.running = true) (hp : s.pc < memorySize)
    (hd : decode (s.mem.cell s.pc) = .ok i) : step s = exec i (s.setIr (s.mem.cell s.pc)) := by
  rw [step_of_running hr, engineStep_of_fetched hp, runFetched_of_ok hd]

theorem step_of_fetch_fails {s : State} (hr : s.running = true) (hp : memorySize ≤ s.pc) :
    step s = .next (raiseRunError .addressOutOfRange s) := by
  rw [step_of_running hr, engineStep_of_fetch_fails hp]

theorem fetchWord_at {a : Nat} (ha : a < memorySize) (t : State) :
    fetchWord { t with pc := a } = some (t.mem.cell a) := by
  rw [fetchWord_eq, if_pos ha]

/-- After a write of `v` to the cell `a` of a canonical memory, a fetch from `a` gives `v`. -/
theorem fetchWord_at_of_mem_eq_store {a : Nat} {m : Memory} {v : Word} {t : State} (ha : a < memorySize)
    (hm : m.wf = true) (ht : t.mem = m.store a v) : fetchWord { t with pc := a } = some v := by
  rw [fetchWord_at ha, ht, Memory.cell_store_same hm]

/-- After a whole image is loaded, a fetch from any cell gives the image's word for it. -/
theorem fetchWord_at_of_mem_eq_ofImage {a : Nat} {image : List Word} {t : State} (ha : a < memorySize)
    (hl : image.length = memorySize) (ht : t.mem = Memory.ofImage image) :
    fetchWord { t with pc := a } = image[a]? := by
  have hlt : a < image.length := hl ▸ ha
  rw [fetchWord_at ha, ht, Memory.cell_ofImage, List.getD_eq_getElem _ _ hlt, List.getElem?_eq_getElem hlt]

/-! ### The statements -/

/-- Settles O8: in range the accesses are one cell's read and write; out of range each of them is the validator's
error, which a run takes as `raiseRunError` and the host gets back as a rejection. -/
theorem validatorGuardsEveryAccess : Obligations.ValidatorGuardsEveryAccess := by
  refine ⟨fun a v s ha hm => ?valid, fun a v s h => ?invalid,
    fun a s ha => ⟨fun i hi => ?operand, fun v rest h => ?read⟩, fun s hr hp => ?fetch, fun a v s hr h => ?host⟩
  case valid =>
    have hread : memRead a s = some (s.mem.cell a) := by rw [memRead_natCast, if_pos ha]
    have hwrite : memWrite a v s = some (s.setMem (s.mem.store a v)) := by rw [memWrite_natCast, if_pos ha]
    exact ⟨hread, _, hwrite, rfl, memRead_setMem_store_same ha hm v, fun _ hb => Memory.cell_store_ne s.mem v hb⟩
  case invalid =>
    have hv := validAddress_eq_false h
    exact ⟨memRead_of_not_valid hv s, memWrite_of_not_valid hv v s⟩
  case operand =>
    obtain ⟨hcheck, hop⟩ := checksAddressFirst_of_mem a i hi
    exact ⟨_, exec_of_result (.outOfRange i hcheck (hop.symm ▸ ha)), rfl, rfl, rfl, rfl, rfl, rfl, rfl, rfl⟩
  case read =>
    exact ⟨_, exec_of_result (.readOutOfRange a v rest h ha), rfl, rfl, rfl, rfl, rfl, rfl, rfl⟩
  case fetch =>
    exact ⟨_, step_of_fetch_fails hr hp, rfl, rfl, rfl, rfl, rfl, rfl, rfl⟩
  case host =>
    have hv := validAddress_eq_false h
    simp only [List.forall_mem_cons, hostOperation_of_halted hr, hostPerform, hostReadMemory_of_not_valid hv,
      hostWriteMemory_of_not_valid hv]
    exact ⟨rfl, rfl, List.forall_mem_nil _⟩

/-- Settles O10: each writer leaves the written cell in `mem`, which is all a fetch reads; and `exec` gets the word of
the step in `ir` before it writes memory, so an instruction that overwrites its own cell runs as it was fetched. -/
theorem nextFetchSeesEveryWrite : Obligations.NextFetchSeesEveryWrite := by
  refine ⟨fun a s ha hm => ?store, fun a s v rest ha hm h => ?read, fun image s a hr hl ha => ?load,
    fun a v s hr ha hm => ?writeMemory, fun s hr hp hm hd => ?storeOverItself,
    fun s v rest hr hp hm hd h => ?readOverItself⟩
  case store =>
    exact ⟨_, exec_of_result (.store a ha), fetchWord_at_of_mem_eq_store ha hm rfl⟩
  case read =>
    exact ⟨_, exec_of_result (.readStores a v rest h ha), fetchWord_at_of_mem_eq_store ha hm rfl⟩
  case load =>
    refine ⟨_, hostOperation_of_halted hr _, fetchWord_at_of_mem_eq_ofImage ha hl ?_⟩
    rw [hostPerform, hostLoad_of_length hl, State.answerHost_mem, State.setMem_mem]
  case writeMemory =>
    refine ⟨_, hostOperation_of_halted hr _, fetchWord_at_of_mem_eq_store ha hm ?_⟩
    rw [hostPerform, hostWriteMemory_of_lt ha, State.answerHost_mem, State.setMem_mem]
  case storeOverItself =>
    rw [step_of_decode hr hp hd]
    exact ⟨_, exec_of_result (.store s.pc hp), rfl, rfl, Memory.cell_store_same hm s.pc s.acc, rfl⟩
  case readOverItself =>
    rw [step_of_decode hr hp hd]
    exact ⟨_, exec_of_result (.readStores s.pc v rest h hp), rfl, rfl, Memory.cell_store_same hm s.pc v, rfl⟩

end Sys2Proof.Machine

/-! SUPPORT. 30_encoding.md section 3: the opcodes the table holds, the words that carry an opcode of a given range,
and the legality ranges of R55 assembled from both. -/

namespace Sys2Proof

/-- The table's twelve opcodes (44_dispatch_and_engine.md R120) are four runs of consecutive integers. -/
theorem exists_dispatch_eq_some_iff (c : Int) : (∃ mk, dispatch c = some mk) ↔
    (10 ≤ c ∧ c ≤ 11) ∨ (20 ≤ c ∧ c ≤ 21) ∨ (30 ≤ c ∧ c ≤ 33) ∨ (40 ≤ c ∧ c ≤ 43) := by
  constructor
  · rintro ⟨mk, h⟩
    rcases dispatch_eq_some h with h | h | h | h | h | h | h | h | h | h | h | h <;> omega
  · intro h
    have hc : c = 10 ∨ c = 11 ∨ c = 20 ∨ c = 21 ∨ c = 30 ∨ c = 31 ∨ c = 32 ∨ c = 33 ∨ c = 40 ∨ c = 41 ∨ c = 42 ∨
        c = 43 := by omega
    rcases hc with rfl | rfl | rfl | rfl | rfl | rfl | rfl | rfl | rfl | rfl | rfl | rfl <;> exact ⟨_, rfl⟩

/-- The words whose opcode lies in a range of positive opcodes are one range too: the operand adds `0 .. 99`. -/
theorem opcodeField_range_iff (w : Word) {lo hi : Int} (h : 0 < lo) :
    (lo ≤ opcodeField w ∧ opcodeField w ≤ hi) ↔ (lo * 100 ≤ w.toInt ∧ w.toInt ≤ hi * 100 + 99) := by
  by_cases hw : 0 ≤ w.toInt
  · have hc : opcodeField w = w.toInt / 100 := (split_of_nonneg hw).1
    omega
  · have hc := opcodeField_nonpos (not_le.mp hw)
    omega

/-- A word is rejected exactly when its opcode selects nothing. -/
theorem exists_decode_eq_error_iff (w : Word) :
    (∃ r, decode w = .error r) ↔ ¬ ∃ mk, dispatch (opcodeField w) = some mk := by
  cases hd : dispatch (opcodeField w) with
  | some mk => simp [decode, hd]
  | none => simp [decode, hd]

end Sys2Proof

namespace Sys2Proof.Machine

/-- Stages 1 to 3 of R124 on a word the decoder rejects: `UnknownOpcode`, with the fetched word in `ir` (R127). -/
theorem step_of_decode_error {s : State} {r : DecodeReject} (hr : s.running = true) (hp : s.pc < memorySize)
    (hd : decode (s.mem.cell s.pc) = .error r) :
    step s = .next (raiseRunError .unknownOpcode (s.setIr (s.mem.cell s.pc))) := by
  rw [step_of_running hr, engineStep_of_fetched hp, runFetched_of_error hd]

/-- Settles O6: the four runs of opcodes in the table, each multiplied out to its range of words; and the step on a
rejected word is `raiseRunError`, which touches none of the fields named. -/
theorem illegalWordsRaiseUnknownOpcode : Obligations.IllegalWordsRaiseUnknownOpcode := by
  refine ⟨fun w => ?ranges, fun s r hr hp hd => ?step⟩
  case ranges =>
    rw [exists_decode_eq_error_iff, exists_dispatch_eq_some_iff, opcodeField_range_iff w (by decide),
      opcodeField_range_iff w (by decide), opcodeField_range_iff w (by decide), opcodeField_range_iff w (by decide)]
    norm_num only
  case step =>
    exact ⟨_, step_of_decode_error hr hp hd, rfl, rfl, rfl, rfl, rfl, rfl, rfl⟩

end Sys2Proof.Machine

/-! SUPPORT. 41_load_store.md: the one word of each instruction, read through the decoder, and what an operand over 99
does to an instruction that checks it first; LOAD and STORE assembled from both. -/

namespace Sys2Proof

/-- The words that decode to an instruction with a two-digit operand: exactly `encode(c, a)` of 30_encoding.md R52. -/
theorem decode_eq_ok_iff_toInt {i : Instr} (hi : i.operand < 100) (w : Word) :
    decode w = .ok i ↔ w.toInt = (i.opcode : Int) * 100 + i.operand := by
  constructor
  · intro h
    obtain ⟨-, hcode, harg⟩ := decode_fields h
    have hc : (i.opcode : Int) = w.toInt / 100 := hcode
    have ha : (i.operand : Int) = w.toInt % 100 := harg
    omega
  · intro h
    have hsplit : opcodeField w = w.toInt / 100 ∧ operandField w = w.toInt % 100 := split_of_nonneg (by omega)
    have hc : opcodeField w = i.opcode := by omega
    have ha : operandField w = i.operand := by omega
    obtain ⟨mk, hd, hmk⟩ := dispatch_opcode i
    simp only [decode, hc, hd, ha, Int.toNat_natCast, hmk]

end Sys2Proof

namespace Sys2Proof.Machine

/-- 20_memory.md R35: an operand out of range, checked before any other effect, leaves one report and a halted machine. -/
theorem exec_of_operand_out_of_range {i : Instr} (hi : Instr.checksAddressFirst i = true) (ha : memorySize ≤ i.operand)
    (s : State) : ∃ t, exec i s = .next t ∧ t.reports = s.reports ++ [.addressOutOfRange] ∧
      t.acc = s.acc ∧ t.pc = s.pc ∧ t.mem = s.mem ∧ t.running = false :=
  ⟨_, exec_of_result (.outOfRange i hi ha), rfl, rfl, rfl, rfl, rfl⟩

/-- Settles O17: in range the next state is `ExecResult.store`, whose memory is `Memory.store`, so the cells are those
of the memory laws; out of range STORE checks its address first. -/
theorem storeWritesTheAccumulator : Obligations.StoreWritesTheAccumulator := by
  refine fun a s => ⟨fun ha hm => ⟨decode_eq_ok_iff_toInt (i := .store a) ha, ?effect⟩,
    fun ha => exec_of_operand_out_of_range (i := .store a) rfl ha s⟩
  case effect =>
    exact ⟨_, exec_of_result (.store a ha), rfl, Memory.cell_store_same hm a s.acc,
      fun b hb => Memory.cell_store_ne s.mem s.acc (mt (congrArg Nat.cast) hb)⟩

/-- Settles O16: in range the next state is `ExecResult.load`; out of range LOAD checks its address first. -/
theorem loadCopiesTheCell : Obligations.LoadCopiesTheCell := fun a s =>
  ⟨fun ha => ⟨decode_eq_ok_iff_toInt (i := .load a) ha, exec_of_result (.load a ha)⟩,
    fun ha => exec_of_operand_out_of_range (i := .load a) rfl ha s⟩

end Sys2Proof.Machine

/-! SUPPORT. 42_arithmetic.md: the two ends of an arithmetic instruction, and R98 read off them. -/

namespace Sys2Proof.Machine

/-- The two ends of the shared datapath of R90, as whole next states: the accumulator written and the pc advanced, or
a run error raised in the state `s` itself. -/
theorem ExecResult.arithmetic {a : Nat} {i : Instr} {s t : State}
    (hi : i ∈ [Instr.add a, .subtract a, .multiply a, .divide a]) (h : ExecResult s i t) :
    (∃ v : Word, t = (s.setAcc v).setPc (s.pc + 1)) ∨ ∃ e : RunError, t = raiseRunError e s := by
  simp only [List.mem_cons, List.not_mem_nil, or_false] at hi
  rcases hi with rfl | rfl | rfl | rfl <;> cases h
  case add | subtract | multiply | divide => exact .inl ⟨_, rfl⟩
  -- left are the raised ends: the address error of each of the four, and the zero divisor
  all_goals exact .inr ⟨_, rfl⟩

/-- Settles O28: of the two ends of an arithmetic instruction the first is the completed state as stated; the second is
`raiseRunError` in `s`, which appends the report, clears `running` and touches no other field named. -/
theorem arithmeticErrorsAreAtomic : Obligations.ArithmeticErrorsAreAtomic := by
  intro a s i hi
  obtain ⟨t, ht, hres⟩ := exec_result i s
  refine ⟨t, ht, ?_⟩
  obtain ⟨v, rfl⟩ | ⟨e, rfl⟩ := hres.arithmetic hi
  · exact .inl ⟨v, rfl⟩
  · exact .inr ⟨e, rfl, rfl, rfl, rfl, rfl, rfl⟩

end Sys2Proof.Machine

/-! SUPPORT. 43_control.md: the three jumps, each from the one word of its instruction and its ends in `ExecResult`. -/

namespace Sys2Proof.Machine

/-- A fetch with the pc outside memory has no word. -/
theorem fetchWord_at_of_not_lt {a : Nat} (ha : memorySize ≤ a) (t : State) : fetchWord { t with pc := a } = none := by
  rw [fetchWord_eq, if_neg (Nat.not_lt.mpr ha)]

/-- The accumulator's zero test by its signed value (R113) is the comparison with the word 0 that the model makes. -/
theorem Word.toInt_eq_zero_iff (w : Word) : w.toInt = 0 ↔ w = 0 := BitVec.toInt_inj (y := 0)

/-- Settles O24: JUMP has one end, which writes the operand into the pc unchecked; only the next fetch checks it. -/
theorem jumpWritesThePc : Obligations.JumpWritesThePc := fun a s =>
  ⟨fun ha => decode_eq_ok_iff_toInt (i := .jump a) ha, exec_of_result (.jump a), fun ha => fetchWord_at ha s,
    fun ha => fetchWord_at_of_not_lt ha s⟩

/-- Settles O25: the two ends of JUMP_IF_NEGATIVE, by the sign of the accumulator. -/
theorem jumpIfNegativeTestsTheSign : Obligations.JumpIfNegativeTestsTheSign := fun a _ =>
  ⟨fun ha => decode_eq_ok_iff_toInt (i := .jumpIfNegative a) ha,
    fun h => exec_of_result (.jumpIfNegativeTaken a h),
    fun h => exec_of_result (.jumpIfNegativeNotTaken a (not_lt.mpr h))⟩

/-- Settles O26: the two ends of JUMP_IF_ZERO, by whether the accumulator is the word 0. -/
theorem jumpIfZeroTestsForZero : Obligations.JumpIfZeroTestsForZero := fun a s =>
  ⟨fun ha => decode_eq_ok_iff_toInt (i := .jumpIfZero a) ha,
    fun h => exec_of_result (.jumpIfZeroTaken a ((Word.toInt_eq_zero_iff s.acc).mp h)),
    fun h => exec_of_result (.jumpIfZeroNotTaken a (mt (Word.toInt_eq_zero_iff s.acc).mpr h))⟩

end Sys2Proof.Machine

/-! SUPPORT. 44_dispatch_and_engine.md: the opcodes off the table of R120, and the running step on such an opcode. -/

namespace Sys2Proof

/-- Every opcode that selects an instruction is one of the twelve of R120. -/
theorem mem_opcodes_of_dispatch {c : Int} {mk : Nat → Instr} (h : dispatch c = some mk) :
    c ∈ [10, 11, 20, 21, 30, 31, 32, 33, 40, 41, 42, 43] := by
  have hruns := (exists_dispatch_eq_some_iff c).mp ⟨mk, h⟩
  simp only [List.mem_cons, List.not_mem_nil, or_false]
  omega

/-- Stage 3 of R124 on an absent opcode: the word is rejected by that opcode. -/
theorem decode_of_dispatch_eq_none {w : Word} (h : dispatch (opcodeField w) = none) :
    decode w = .error (.unknownOpcode (opcodeField w)) := by
  simp only [decode, h]

end Sys2Proof

namespace Sys2Proof.Machine

/-- R127: the step on an absent opcode, as a whole next state. -/
theorem step_of_dispatch_eq_none {s : State} (hr : s.running = true) (hp : s.pc < memorySize)
    (hd : dispatch (opcodeField (s.mem.cell s.pc)) = none) :
    step s = .next (raiseRunError .unknownOpcode (s.setIr (s.mem.cell s.pc))) :=
  step_of_decode_error hr hp (decode_of_dispatch_eq_none hd)

/-- Settles O2: the rows are the table's own, an opcode that selects anything is among the twelve, and the step on a
miss is `raiseRunError`. -/
theorem dispatchIsTheTwelveEntryTable : Obligations.DispatchIsTheTwelveEntryTable := by
  refine ⟨?rows, fun c hc => ?absent, fun s hr hp hd => ?miss⟩
  case rows =>
    exact ⟨rfl, rfl, rfl, rfl, rfl, rfl, rfl, rfl, rfl, rfl, rfl, rfl⟩
  case absent =>
    exact Option.eq_none_iff_forall_ne_some.mpr fun _ h => hc (mem_opcodes_of_dispatch h)
  case miss =>
    exact ⟨_, step_of_dispatch_eq_none hr hp hd, rfl, rfl⟩

/-- Settles O33: the next state is `raiseRunError` after the write of `ir`, which touches no other field named. -/
theorem unknownOpcodeLeavesTheRestUntouched : Obligations.UnknownOpcodeLeavesTheRestUntouched :=
  fun _ hr hp hd => ⟨_, step_of_dispatch_eq_none hr hp hd, rfl, rfl, rfl, rfl, rfl, rfl, rfl, rfl, rfl⟩

end Sys2Proof.Machine

/-! SUPPORT. 60_exceptions.md: the step on a zero divisor, and what a reported `DivisionByZero` says of its step. -/

namespace Sys2Proof.Machine

/-- R142: the running step on DIVIDE of a cell holding 0, as a whole next state. -/
theorem step_of_zero_divisor {s : State} {a : Nat} (hr : s.running = true) (hn : s.nextInstr = some (.divide a))
    (hz : s.mem.cell a = 0) : step s = .next (raiseRunError .divisionByZero (s.setIr (s.mem.cell s.pc))) := by
  obtain ⟨hp, hd⟩ := decode_of_nextInstr hn
  rw [step_of_decode hr hp hd]
  exact exec_of_result (.divideByZero a (operand_lt_of_decode hd) hz)

/-- An execute stage whose one new report is `DivisionByZero` was DIVIDE with a zero divisor: every other end reports
nothing or another error. -/
theorem ExecResult.zero_divisor_of_reports {s t : State} {i : Instr} (h : ExecResult s i t)
    (hrep : t.reports = s.reports ++ [.divisionByZero]) : ∃ a, i = .divide a ∧ s.mem.cell a = 0 := by
  cases h with
  | divideByZero a _ hz => exact ⟨a, rfl, hz⟩
  | _ => simp at hrep

/-- The same of a running step: the two stages before execution report other errors. -/
theorem nextInstr_of_division_by_zero {s t : State} (hr : s.running = true) (h : step s = .next t)
    (hrep : t.reports = s.reports ++ [.divisionByZero]) : ∃ a, s.nextInstr = some (.divide a) ∧ s.mem.cell a = 0 := by
  cases step_cases h with
  | fetchFails | unknownOpcode => simp at hrep
  | executes _ hp i hd _ he =>
    obtain ⟨a, rfl, hz⟩ := he.zero_divisor_of_reports hrep
    exact ⟨a, nextInstr_of_decode hp hd, hz⟩
  | idle hr' | serves hr' => simp [hr] at hr'

/-- Settles O23: on a zero divisor the next state is `raiseRunError` after the write of `ir`, which touches no other
field named; the converse is the inversion of the step by its report. -/
theorem zeroDivisorRaisesDivisionByZero : Obligations.ZeroDivisorRaisesDivisionByZero := by
  intro s hr
  obtain ⟨t, ht, -⟩ := step_result s
  refine ⟨t, ht, fun a hn hz => ?raises, nextInstr_of_division_by_zero hr ht⟩
  case raises =>
    obtain rfl : raiseRunError .divisionByZero (s.setIr (s.mem.cell s.pc)) = t :=
      Host.Outcome.next.inj ((step_of_zero_divisor hr hn hz).symm.trans ht)
    exact ⟨rfl, rfl, rfl, rfl, rfl, rfl⟩

end Sys2Proof.Machine

/-! SUPPORT. 70_reset_and_hazards.md: the host's `reset` as a whole next state. -/

namespace Sys2Proof.Machine

/-- R170, R171: `reset` is the machine as created in the environment of the halted one; the one environment field that
differs is the host's own list of results. -/
theorem hostOperation_reset_of_halted {s : State} (hr : s.running = false) : hostOperation .reset s = .next
    { State.reset with
      inputs := s.inputs, writeAnswers := s.writeAnswers, writeRest := s.writeRest, output := s.output,
      reports := s.reports, hostOps := s.hostOps, hostResults := s.hostResults ++ [.done] } :=
  hostOperation_of_halted hr .reset

/-- Settles O53: the next state is `State.reset` in the five fields of the Machine State, which are zero there, and `s`
in the streams and the reports. -/
theorem hostResetGivesTheStateAtCreation : Obligations.HostResetGivesTheStateAtCreation := by
  intro s hr
  have zeroed : ∀ a, State.reset.mem.cell a = 0 := fun _ => rfl
  exact ⟨_, hostOperation_reset_of_halted hr, rfl, rfl, rfl, rfl, zeroed, rfl, rfl, rfl, rfl, rfl,
    rfl, rfl, rfl, rfl, rfl⟩

end Sys2Proof.Machine

/-! SUPPORT. 30_encoding.md: the round trip of R52 both ways, the split of R51, and the two other roundings of R56. -/

namespace Sys2Proof

/-- Settles O3: the word `toInt_encode` computes is the one word that decodes to the instruction. -/
theorem decodeOfEncodeIsTheInstruction : Obligations.DecodeOfEncodeIsTheInstruction := fun i hi =>
  (decode_eq_ok_iff_toInt ((Instr.wf_iff i).mp hi) (encode i)).mpr (toInt_encode hi)

/-- Settles O4: a decoded operand has two digits, and the two words agree as signed integers. -/
theorem encodeOfDecodeIsTheWord : Obligations.EncodeOfDecodeIsTheWord := by
  intro w i h
  have hop : i.operand < operandModulus := Machine.operand_lt_of_decode h
  have hwf : i.wf = true := (Instr.wf_iff i).mpr hop
  exact ⟨hwf, BitVec.toInt_inj.mp ((toInt_encode hwf).trans ((decode_eq_ok_iff_toInt hop w).mp h).symm)⟩

/-- A word that is not positive has an operand that is not positive (00_scope.md R7: `tmod` takes the dividend's sign). -/
theorem operandField_nonpos {w : Word} (h : w.toInt ≤ 0) : operandField w ≤ 0 := by
  have hneg : (-w.toInt).tmod operandModulus = -operandField w := Int.neg_tmod _ _
  have hpos : 0 ≤ (-w.toInt).tmod operandModulus := Int.tmod_nonneg _ (by omega)
  omega

/-- Settles O5: the law of `tdiv` and `tmod`, the bounds of a remainder by 100, and its sign. -/
theorem everyWordIsItsTwoFields : Obligations.EveryWordIsItsTwoFields := fun w =>
  ⟨opcodeField_operandField w, Int.lt_tmod_of_pos _ (by decide), Int.tmod_lt_of_pos _ (by decide),
    Int.tmod_nonneg _, operandField_nonpos⟩

/-- What decoding to an instruction means, both ways. -/
theorem decode_eq_ok_iff_dispatch (w : Word) (i : Instr) :
    decode w = .ok i ↔ ∃ mk, dispatch (opcodeField w) = some mk ∧ i = mk (operandField w).toNat := by
  refine ⟨decode_eq_ok, ?_⟩
  rintro ⟨mk, hd, rfl⟩
  simp only [decode, hd]

/-- R56 for Euclidean division: the fields of a word that is not negative are the same, and a negative word selects
nothing by either quotient. -/
theorem decode_eq_ok_iff_ediv (w : Word) (i : Instr) :
    decode w = .ok i ↔ ∃ mk, dispatch (w.toInt / 100) = some mk ∧ i = mk (w.toInt % 100).toNat := by
  rw [decode_eq_ok_iff_dispatch]
  by_cases hw : 0 ≤ w.toInt
  · have hsplit : opcodeField w = w.toInt / 100 ∧ operandField w = w.toInt % 100 := split_of_nonneg hw
    rw [hsplit.1, hsplit.2]
  · have hc := opcodeField_nonpos (not_le.mp hw)
    constructor
    all_goals
      rintro ⟨mk, hd, -⟩
      have hpos := (dispatch_range hd).1
      omega

/-- Settles O7: by a positive divisor floor and Euclidean division are the same. -/
theorem decoderRoundingIsUnobservable : Obligations.DecoderRoundingIsUnobservable := by
  intro w i
  rw [Int.fdiv_eq_ediv_of_nonneg _ (by decide), Int.fmod_eq_emod_of_nonneg _ (by decide)]
  exact ⟨decode_eq_ok_iff_ediv w i, decode_eq_ok_iff_ediv w i⟩

/-- Settles O1: the decoder evaluated on the sixteen words. -/
theorem decodesTheWrittenOutWords : Obligations.DecodesTheWrittenOutWords := by
  unfold Obligations.DecodesTheWrittenOutWords
  decide

end Sys2Proof

/-! SUPPORT. 20_memory.md section 1: in the canonical form of log 3 the cells determine the list. -/

namespace Sys2Proof.Machine

/-- The first listed address of a canonical memory holds something else than an unlisted cell, so a memory with the same
cells lists no later address first. -/
theorem Memory.head_address_le {lo lo' k k' : Nat} {w w' : Word} {m n : Memory}
    (hm : Memory.wfFrom lo ((k, w) :: m) = true) (hn : Memory.wfFrom lo' ((k', w') :: n) = true)
    (h : ∀ a, Memory.cell ((k, w) :: m) a = Memory.cell ((k', w') :: n) a) : k' ≤ k := by
  rw [Memory.wfFrom_cons] at hm hn
  obtain ⟨-, -, hw, -⟩ := hm
  by_contra hlt
  have hfirst : Memory.wfFrom k' ((k', w') :: n) = true := (Memory.wfFrom_cons ..).mpr ⟨le_rfl, hn.2⟩
  have hk := h k
  rw [Memory.cell_cons, if_pos rfl, Memory.cell_below hfirst (not_le.mp hlt)] at hk
  exact hw hk

/-- A canonical memory that reads as unlisted everywhere lists nothing. -/
theorem Memory.eq_nil_of_cells {lo : Nat} {m : Memory} (hm : Memory.wfFrom lo m = true)
    (h : ∀ a, Memory.cell m a = Memory.unlistedValue) : m = [] := by
  cases m with
  | nil => rfl
  | cons e m =>
    obtain ⟨k, w⟩ := e
    obtain ⟨-, -, hw, -⟩ := (Memory.wfFrom_cons ..).mp hm
    have hk := h k
    rw [Memory.cell_cons, if_pos rfl] at hk
    exact absurd hk hw

/-- Extensionality of canonical memories. -/
theorem Memory.eq_of_cells {lo lo' : Nat} {m n : Memory} (hm : Memory.wfFrom lo m = true)
    (hn : Memory.wfFrom lo' n = true) (h : ∀ a, Memory.cell m a = Memory.cell n a) : m = n := by
  induction m generalizing lo lo' n with
  | nil => exact (Memory.eq_nil_of_cells hn fun a => (h a).symm).symm
  | cons e m ih =>
    cases n with
    | nil => exact Memory.eq_nil_of_cells hm h
    | cons e' n =>
      obtain ⟨k, w⟩ := e
      obtain ⟨k', w'⟩ := e'
      obtain rfl : k = k' :=
        le_antisymm (Memory.head_address_le hn hm fun a => (h a).symm) (Memory.head_address_le hm hn h)
      obtain ⟨-, -, -, hm⟩ := (Memory.wfFrom_cons ..).mp hm
      obtain ⟨-, -, -, hn⟩ := (Memory.wfFrom_cons ..).mp hn
      have hw : w = w' := by simpa [Memory.cell_cons] using h k
      have tails : ∀ a, Memory.cell m a = Memory.cell n a := by
        intro a
        by_cases ha : k = a
        · rw [Memory.cell_below hm (by omega), Memory.cell_below hn (by omega)]
        · simpa [Memory.cell_cons, ha] using h a
      rw [hw, ih hm hn tails]

/-- Settles O9: the cells from `MEMORY_SIZE` on are unlisted in both. -/
theorem canonicalMemoriesWithEqualCellsAreEqual : Obligations.CanonicalMemoriesWithEqualCellsAreEqual := by
  intro m n hm hn h
  refine Memory.eq_of_cells hm hn fun a => ?_
  by_cases ha : a < memorySize
  · exact h a ha
  · rw [Memory.cell_above hm (not_lt.mp ha), Memory.cell_above hn (not_lt.mp ha)]

end Sys2Proof.Machine

/-! SUPPORT. What one execute stage (`ExecResult`) and one host operation do to each field of State, said once each; the
frames and the invariants below are read off these. -/

namespace Sys2Proof.Machine

/-! ### One execute stage -/

/-- The instructions that write the accumulator when they complete (10_state.md R11). -/
def Instr.writesAcc : Instr → Bool
  | .load _ | .add _ | .subtract _ | .divide _ | .multiply _ => true
  | .read _ | .write _ | .store _ => false
  | .jump _ | .jumpIfNegative _ | .jumpIfZero _ | .halt _ => false

theorem ExecResult.ir_eq {s t : State} {i : Instr} (h : ExecResult s i t) : t.ir = s.ir := by
  cases h <;> rfl

theorem ExecResult.writeRest_eq {s t : State} {i : Instr} (h : ExecResult s i t) : t.writeRest = s.writeRest := by
  cases h <;> rfl

theorem ExecResult.hostOps_eq {s t : State} {i : Instr} (h : ExecResult s i t) : t.hostOps = s.hostOps := by
  cases h <;> rfl

theorem ExecResult.acc_eq {s t : State} {i : Instr} (h : ExecResult s i t) (hi : Instr.writesAcc i = false) :
    t.acc = s.acc := by
  cases h with
  | load | add | subtract | divide | multiply => cases hi
  | _ => rfl

/-- Memory is written by READ and STORE only, and in one cell, which is in range. -/
theorem ExecResult.mem_cases {s t : State} {i : Instr} (h : ExecResult s i t) :
    t.mem = s.mem ∨ ∃ a v, (i = .read a ∨ i = .store a) ∧ a < memorySize ∧ t.mem = s.mem.store a v := by
  cases h with
  | readStores a v rest hin ha => exact .inr ⟨a, v, .inl rfl, ha, rfl⟩
  | store a ha => exact .inr ⟨a, s.acc, .inr rfl, ha, rfl⟩
  | _ => exact .inl rfl

theorem ExecResult.mem_eq {s t : State} {i : Instr} (h : ExecResult s i t) (hread : ∀ a, i ≠ .read a)
    (hstore : ∀ a, i ≠ .store a) : t.mem = s.mem := by
  obtain hm | ⟨a, -, hi | hi, -⟩ := h.mem_cases
  · exact hm
  · exact absurd hi (hread a)
  · exact absurd hi (hstore a)

/-- The inputs lose at most their first answer, and only to a READ (20_memory.md R39). -/
theorem ExecResult.inputs_cases {s t : State} {i : Instr} (h : ExecResult s i t) :
    t.inputs = s.inputs ∨ (t.inputs = s.inputs.tail ∧ ∃ a, i = .read a) := by
  cases h with
  | readFails a rest hin | readStores a v rest hin ha | readOutOfRange a v rest hin ha =>
    exact .inr ⟨(congrArg List.tail hin).symm, a, rfl⟩
  | _ => exact .inl rfl

theorem ExecResult.inputs_eq {s t : State} {i : Instr} (h : ExecResult s i t) (hread : ∀ a, i ≠ .read a) :
    t.inputs = s.inputs := by
  obtain hin | ⟨-, a, hi⟩ := h.inputs_cases
  · exact hin
  · exact absurd hi (hread a)

/-- The output gains at most one word, and only by a WRITE, from its cell (20_memory.md R37). -/
theorem ExecResult.output_cases {s t : State} {i : Instr} (h : ExecResult s i t) :
    t.output = s.output ∨ ∃ a, i = .write a ∧ t.output = s.output ++ [s.mem.cell a] := by
  cases h with
  | writeEmits a => exact .inr ⟨a, rfl, rfl⟩
  | _ => exact .inl rfl

theorem ExecResult.output_eq {s t : State} {i : Instr} (h : ExecResult s i t) (hwrite : ∀ a, i ≠ .write a) :
    t.output = s.output := by
  obtain hout | ⟨a, hi, -⟩ := h.output_cases
  · exact hout
  · exact absurd hi (hwrite a)

theorem ExecResult.writeAnswers_eq {s t : State} {i : Instr} (h : ExecResult s i t) (hwrite : ∀ a, i ≠ .write a) :
    t.writeAnswers = s.writeAnswers := by
  cases h with
  | writeEmits a | writeFails a => exact absurd rfl (hwrite a)
  | _ => rfl

/-- An execute stage that reports has raised an error, before which only an answer of the collaborator was taken. -/
theorem ExecResult.raised {s t : State} {i : Instr} (h : ExecResult s i t) (hrep : t.reports ≠ s.reports) :
    ∃ e ins answers, t = raiseRunError e ((s.setInputs ins).setWriteAnswers answers) := by
  cases h with
  | readFails a rest | readOutOfRange a v rest => exact ⟨_, rest, s.writeAnswers, rfl⟩
  | writeFails => exact ⟨_, s.inputs, s.writeAnswers.tail, rfl⟩
  | outOfRange | divideByZero => exact ⟨_, s.inputs, s.writeAnswers, rfl⟩
  | _ => exact absurd rfl hrep

/-- An execute stage that reports nothing ends the run only by HALT (10_state.md R15). -/
theorem ExecResult.running_of_no_report {s t : State} {i : Instr} (h : ExecResult s i t)
    (hrep : t.reports = s.reports) (hhalt : ∀ a, i ≠ .halt a) :
    t.running = s.running ∧ t.hostResults = s.hostResults := by
  cases h with
  | readFails | readOutOfRange | outOfRange | writeFails | divideByZero => simp at hrep
  | halt a => exact absurd rfl (hhalt a)
  | _ => exact ⟨rfl, rfl⟩

/-- The jumps and HALT: the pc written, and HALT ends the run. -/
theorem ExecResult.control {s t : State} {i : Instr} {a : Nat}
    (hi : i ∈ [Instr.jump a, .jumpIfNegative a, .jumpIfZero a, .halt a]) (h : ExecResult s i t) :
    (∃ p, t = s.setPc p) ∨ (i = .halt a ∧ t = (s.endRun .completed).setPc (s.pc + 1)) := by
  simp only [List.mem_cons, List.not_mem_nil, or_false] at hi
  rcases hi with rfl | rfl | rfl | rfl <;> cases h
  case jump | jumpIfNegativeTaken | jumpIfNegativeNotTaken | jumpIfZeroTaken | jumpIfZeroNotTaken => exact .inl ⟨_, rfl⟩
  case halt => exact .inr ⟨rfl, rfl⟩
  -- left are the address errors, which no control instruction has
  all_goals
    rename_i hcheck _
    cases hcheck

/-- The controller's table (44_dispatch_and_engine.md R130): the pc after a stage that completed. -/
theorem ExecResult.pc_of_completed {s t : State} {i : Instr} (h : ExecResult s i t) (hrep : t.reports = s.reports)
    (hwait : s.inputs = [] → ∀ a, i ≠ .read a) : t.pc = s.controllerPc i := by
  cases h with
  | readWaits a hin => exact absurd rfl (hwait hin a)
  | readFails | readOutOfRange | outOfRange | writeFails | divideByZero => simp at hrep
  | jumpIfNegativeTaken a hneg => exact (if_pos hneg).symm
  | jumpIfNegativeNotTaken a hneg => exact (if_neg hneg).symm
  | jumpIfZeroTaken a hz => exact (if_pos ((Word.toInt_eq_zero_iff s.acc).mpr hz)).symm
  | jumpIfZeroNotTaken a hz => exact (if_neg (mt (Word.toInt_eq_zero_iff s.acc).mp hz)).symm
  | _ => rfl

/-! ### One host operation -/

theorem hostLoad_of_length_ne {image : List Word} (h : image.length ≠ memorySize) (s : State) :
    hostLoad image s = s.answerHost (.rejected .imageLengthMismatch) := if_neg h

theorem hostReadMemory_of_valid {a : Int} (h : validAddress a = true) (s : State) :
    hostReadMemory a s = s.answerHost (.word (s.mem.cell a.toNat)) := by
  rw [hostReadMemory, memRead_of_valid h]

theorem hostWriteMemory_of_valid {a : Int} (h : validAddress a = true) (v : Word) (s : State) :
    hostWriteMemory a v s = (s.setMem (s.mem.store a.toNat v)).answerHost .done := by
  rw [hostWriteMemory, memWrite_of_valid h]

/-- The three shapes of a host operation's next state: every operation but `reset` and `execute` touches memory and the
list of results at most. -/
theorem hostPerform_cases (op : HostOp) (s : State) :
    (op = .reset ∧ hostPerform op s = (hostReset s).answerHost .done) ∨
    (op = .execute ∧ hostPerform op s = s.startRun) ∨
    ∃ m r, hostPerform op s = (s.setMem m).answerHost r := by
  cases op with
  | reset => exact .inl ⟨rfl, rfl⟩
  | execute => exact .inr (.inl ⟨rfl, rfl⟩)
  | load image =>
    by_cases hl : image.length = memorySize
    · exact .inr (.inr ⟨_, _, hostLoad_of_length hl s⟩)
    · exact .inr (.inr ⟨s.mem, _, hostLoad_of_length_ne hl s⟩)
  | readMemory a =>
    cases hv : validAddress a with
    | true => exact .inr (.inr ⟨s.mem, _, hostReadMemory_of_valid hv s⟩)
    | false => exact .inr (.inr ⟨s.mem, _, hostReadMemory_of_not_valid hv s⟩)
  | writeMemory a v =>
    cases hv : validAddress a with
    | true => exact .inr (.inr ⟨_, _, hostWriteMemory_of_valid hv v s⟩)
    | false => exact .inr (.inr ⟨s.mem, _, hostWriteMemory_of_not_valid hv v s⟩)
  | dumpMemory | dumpRegisters => exact .inr (.inr ⟨s.mem, _, rfl⟩)

end Sys2Proof.Machine

/-! SUPPORT. 10_state.md R18: the invariant, kept by every transition. -/

namespace Sys2Proof.Machine

theorem ExecResult.wf {s t : State} {i : Instr} (h : ExecResult s i t) (hm : s.mem.wf = true) : t.mem.wf = true := by
  obtain heq | ⟨a, v, -, ha, heq⟩ := h.mem_cases
  · rw [heq]; exact hm
  · rw [heq]; exact Memory.wf_store hm ha v

/-- The pc after an execute stage: at most one more than the address of the instruction, or its operand. -/
theorem ExecResult.pc_le {s t : State} {i : Instr} (h : ExecResult s i t) (hp : s.pc < memorySize)
    (hop : i.operand < memorySize) : t.pc ≤ memorySize := by
  cases h with
  | jump | jumpIfNegativeTaken | jumpIfZeroTaken => exact hop.le
  | readWaits | readFails | readOutOfRange | outOfRange | writeFails | divideByZero => exact hp.le
  | _ => exact hp

theorem hostPerform_pc_le {s : State} (hp : s.pc ≤ memorySize) (op : HostOp) : (hostPerform op s).pc ≤ memorySize := by
  obtain ⟨-, h⟩ | ⟨-, h⟩ | ⟨m, r, h⟩ := hostPerform_cases op s <;> rw [h]
  · exact Nat.zero_le _
  · exact Nat.zero_le _
  · exact hp

/-- Settles O40: each part of the invariant through each shape of a transition. -/
theorem invariantKeptByEveryStep : Obligations.InvariantKeptByEveryStep := by
  rintro s t ⟨hm, hp⟩ h
  cases step_cases h with
  | fetchFails | unknownOpcode | idle => exact ⟨hm, hp⟩
  | executes _ hlt i hd _ he => exact ⟨he.wf hm, he.pc_le hlt (operand_lt_of_decode hd)⟩
  | serves _ op rest =>
    exact ⟨hostPerform_wf (s := s.setHostOps rest) hm op, hostPerform_pc_le (s := s.setHostOps rest) hp op⟩

/-- Settles O41: no cell is listed and the pc is 0. -/
theorem invariantHoldsAtReset : Obligations.InvariantHoldsAtReset := ⟨rfl, Nat.zero_le _⟩

/-- Settles O42, by induction on the number of transitions. -/
theorem invariantHoldsAlongEveryRun : Obligations.InvariantHoldsAlongEveryRun := by
  intro k
  induction k with
  | zero =>
    rintro s _ hs rfl
    exact hs
  | succ k ih =>
    rintro s t hs ⟨u, hstep, hreach⟩
    exact ih u t (invariantKeptByEveryStep s u hs hstep) hreach

end Sys2Proof.Machine

/-! SUPPORT. 44_dispatch_and_engine.md R131, R134: a step only appends to what leaves the machine, so it commutes with
putting a past in front of it. Two states of the same cause are one state behind two pasts. -/

namespace Sys2Proof.Machine

/-- `s` after the past `p`: what `p` has emitted, reported and returned stands before what `s` has, and the host's
pending operations are those of `p`. -/
def State.withPast (s p : State) : State :=
  { s with output := p.output ++ s.output, reports := p.reports ++ s.reports, hostOps := p.hostOps
           hostResults := p.hostResults ++ s.hostResults }

/-- `s` without a past: the fields `State.SameCause` names, and empty lists beside them. -/
def State.cause (s : State) : State := { s with output := [], reports := [], hostOps := [], hostResults := [] }

theorem State.cause_withPast (s : State) : s.cause.withPast s = s := by
  simp only [State.withPast, State.cause, List.append_nil]

theorem State.SameCause.cause_eq {s t : State} (h : s.SameCause t) : s.cause = t.cause := by
  obtain ⟨hacc, hpc, hir, hrunning, hmem, hinputs, hanswers, hrest⟩ := h
  simp only [State.cause, hacc, hpc, hir, hrunning, hmem, hinputs, hanswers, hrest]

theorem State.withPast_sameCause (s p q : State) : (s.withPast p).SameCause (s.withPast q) :=
  ⟨rfl, rfl, rfl, rfl, rfl, rfl, rfl, rfl⟩

/-! ### What is appended after a past is appended behind it -/

theorem State.emit_withPast (s p : State) (v : Word) : (s.emit v).withPast p = (s.withPast p).emit v := by
  simp only [State.withPast, State.emit, List.append_assoc]

theorem State.endRun_withPast (s p : State) (o : RunOutcome) : (s.endRun o).withPast p = (s.withPast p).endRun o := by
  simp only [State.withPast, State.endRun, List.append_assoc]

theorem raiseRunError_withPast (e : RunError) (s p : State) :
    (raiseRunError e s).withPast p = raiseRunError e (s.withPast p) := by
  simp only [raiseRunError, State.withPast, State.endRun, State.report, List.append_assoc]

theorem State.setPc_withPast (s p : State) (a : Nat) : (s.setPc a).withPast p = (s.withPast p).setPc a := rfl

/-! ### Stage, step and run commute with a past -/

theorem ExecResult.withPast {s t : State} {i : Instr} (h : ExecResult s i t) (p : State) :
    ExecResult (s.withPast p) i (t.withPast p) := by
  cases h with
  | readFails a rest hin => rw [raiseRunError_withPast]; exact .readFails a rest hin
  | readOutOfRange a v rest hin ha => rw [raiseRunError_withPast]; exact .readOutOfRange a v rest hin ha
  | outOfRange i hi ha => rw [raiseRunError_withPast]; exact .outOfRange i hi ha
  | writeFails a ha hw => rw [raiseRunError_withPast]; exact .writeFails a ha hw
  | divideByZero a ha hz => rw [raiseRunError_withPast]; exact .divideByZero a ha hz
  | writeEmits a ha hw => rw [State.setPc_withPast, State.emit_withPast]; exact .writeEmits a ha hw
  | halt a => rw [State.setPc_withPast, State.endRun_withPast]; exact .halt a
  | readWaits a hin => exact .readWaits a hin
  | readStores a v rest hin ha => exact .readStores a v rest hin ha
  | load a ha => exact .load a ha
  | store a ha => exact .store a ha
  | add a ha => exact .add a ha
  | subtract a ha => exact .subtract a ha
  | divide a ha hz => exact .divide a ha hz
  | multiply a ha => exact .multiply a ha
  | jump a => exact .jump a
  | jumpIfNegativeTaken a hneg => exact .jumpIfNegativeTaken a hneg
  | jumpIfNegativeNotTaken a hneg => exact .jumpIfNegativeNotTaken a hneg
  | jumpIfZeroTaken a hz => exact .jumpIfZeroTaken a hz
  | jumpIfZeroNotTaken a hz => exact .jumpIfZeroNotTaken a hz

theorem step_withPast {s t : State} (hr : s.running = true) (h : step s = .next t) (p : State) :
    step (s.withPast p) = .next (t.withPast p) := by
  cases step_cases h with
  | fetchFails _ hp => rw [raiseRunError_withPast]; exact step_of_fetch_fails (s := s.withPast p) hr hp
  | unknownOpcode _ hp r hd => rw [raiseRunError_withPast]; exact step_of_decode_error (s := s.withPast p) hr hp hd
  | executes _ hp i hd _ he =>
    exact (step_of_decode (s := s.withPast p) hr hp hd).trans (exec_of_result (he.withPast p))
  | idle hr' | serves hr' => simp [hr] at hr'

theorem runUntilHalted_withPast (fuel : Nat) (s p : State) :
    runUntilHalted fuel (s.withPast p) = (runUntilHalted fuel s).map (·.withPast p) := by
  have of_halted (fuel : Nat) (s : State) (hr : s.running = false) :
      runUntilHalted fuel (s.withPast p) = (runUntilHalted fuel s).map (·.withPast p) := by
    rw [runUntilHalted_of_halted hr, runUntilHalted_of_halted (s := s.withPast p) hr, Option.map_some]
  induction fuel generalizing s with
  | zero =>
    cases hr : s.running with
    | false => exact of_halted 0 s hr
    | true =>
      rw [runUntilHalted_zero_of_running hr, runUntilHalted_zero_of_running (s := s.withPast p) hr, Option.map_none]
  | succ fuel ih =>
    cases hr : s.running with
    | false => exact of_halted (fuel + 1) s hr
    | true =>
      obtain ⟨t, ht, -⟩ := step_result s
      rw [runUntilHalted_of_step hr ht, runUntilHalted_of_step (s := s.withPast p) hr (step_withPast hr ht p), ih]

/-- An observation holds the run's own words, report and outcome only (log 18). -/
theorem State.observe_withPast (t s p : State) (n : Nat) : (t.withPast p).observe (s.withPast p) n = t.observe s n := by
  simp only [State.observe, State.withPast, List.length_append, List.drop_length_add_append]

theorem observeRun_withPast (fuel : Nat) (s p : State) : observeRun fuel (s.withPast p) = observeRun fuel s := by
  rw [observeRun, observeRun, runUntilHalted_withPast, Option.map_map]
  exact congrArg (Option.map · _) (funext fun t => State.observe_withPast t s p _)

/-- Settles O43: both states are the common cause behind their own past, and so are both next states. -/
theorem stepDependsOnlyOnStateAndAnswers : Obligations.StepDependsOnlyOnStateAndAnswers := by
  intro s₁ s₂ hcause hr
  obtain ⟨t, ht, -⟩ := step_result s₁.cause
  have h₁ := step_withPast (s := s₁.cause) hr ht s₁
  have h₂ := step_withPast (s := s₁.cause) hr ht s₂
  rw [State.cause_withPast] at h₁
  rw [hcause.cause_eq, State.cause_withPast] at h₂
  exact ⟨_, _, h₁, h₂, State.withPast_sameCause t s₁ s₂, ⟨t.output, rfl, rfl⟩, ⟨t.reports, rfl, rfl⟩,
    ⟨t.hostResults, rfl, rfl⟩, rfl, rfl⟩

/-- Settles O51: either run is observed as the run of the common cause. -/
theorem observationDependsOnlyOnStateAndAnswers : Obligations.ObservationDependsOnlyOnStateAndAnswers := by
  intro fuel s₁ s₂ hcause _
  calc observeRun fuel s₁
      = observeRun fuel s₁.cause := by rw [← observeRun_withPast fuel s₁.cause s₁, State.cause_withPast]
    _ = observeRun fuel s₂.cause := by rw [hcause.cause_eq]
    _ = observeRun fuel s₂ := by rw [← observeRun_withPast fuel s₂.cause s₂, State.cause_withPast]

end Sys2Proof.Machine

/-! SUPPORT. 40_io.md: READ and WRITE, each from the one word of its encoding and its ends in `ExecResult`. -/

namespace Sys2Proof.Machine

/-- Settles O11: the end `ExecResult.readStores`, whose memory is `Memory.store`. -/
theorem readStoresTheInput : Obligations.ReadStoresTheInput := by
  refine fun a s ha => ⟨decode_eq_ok_iff_toInt (i := .read a) ha, fun v rest hin hm => ?effect⟩
  case effect =>
    exact ⟨_, exec_of_result (.readStores a v rest hin ha), rfl, Memory.cell_store_same hm a v,
      fun b hb => Memory.cell_store_ne s.mem v (mt (congrArg Nat.cast) hb)⟩

/-- Settles O14: the end `ExecResult.writeEmits`. -/
theorem writeEmitsTheCell : Obligations.WriteEmitsTheCell := fun a _ ha =>
  ⟨decode_eq_ok_iff_toInt (i := .write a) ha, fun hok => exec_of_result (.writeEmits a ha hok)⟩

/-- Settles O15: the two ends in which the collaborator answered `Fail`. -/
theorem failedIoRaisesIoFailure : Obligations.FailedIoRaisesIoFailure := fun a _ =>
  ⟨fun rest hin => exec_of_result (.readFails a rest hin), fun ha hfail => exec_of_result (.writeFails a ha hfail)⟩

end Sys2Proof.Machine

/-! SUPPORT. 42_arithmetic.md: `wrap` as the statements write it, the range of a truncated quotient, and the results of
the four arithmetic instructions. -/

namespace Sys2Proof.Machine

/-- `toInt_wrap` with the bounds of a word written out. -/
theorem toInt_wrap_eq (v : Int) : (wrap v).toInt = (v + 2147483648) % 4294967296 - 2147483648 := by
  rw [toInt_wrap, minInt, sub_neg_eq_add, ← sub_eq_add_neg]

/-- Settles O18: ADD's one end in range, its accumulator read through `wrap`. -/
theorem addWrapsIntoTheAccumulator : Obligations.AddWrapsIntoTheAccumulator := fun a _ ha =>
  ⟨decode_eq_ok_iff_toInt (i := .add a) ha, _, exec_of_result (.add a ha), toInt_wrap_eq _⟩

/-- Settles O19: SUBTRACT's one end in range, its accumulator read through `wrap`. -/
theorem subtractWrapsIntoTheAccumulator : Obligations.SubtractWrapsIntoTheAccumulator := fun a _ ha =>
  ⟨decode_eq_ok_iff_toInt (i := .subtract a) ha, _, exec_of_result (.subtract a ha), toInt_wrap_eq _⟩

/-- Settles O20: MULTIPLY's one end in range, its accumulator read through `wrap`. -/
theorem multiplyWrapsIntoTheAccumulator : Obligations.MultiplyWrapsIntoTheAccumulator := fun a _ ha =>
  ⟨decode_eq_ok_iff_toInt (i := .multiply a) ha, _, exec_of_result (.multiply a ha), toInt_wrap_eq _⟩

/-- A truncated quotient of words is a word, but for `MIN_INT / -1` (R95): by 1 and -1 it is the dividend and its
negation, by any other divisor at most half as large. -/
theorem tdiv_fits {x y : Int} (hx : minInt ≤ x ∧ x ≤ maxInt) (hy : y ≠ 0) (h : ¬ (x = minInt ∧ y = -1)) :
    minInt ≤ x.tdiv y ∧ x.tdiv y ≤ maxInt := by
  by_cases hone : y = 1
  · rw [hone, Int.tdiv_one]
    exact hx
  by_cases hneg : y = -1
  · rw [hneg, Int.tdiv_neg, Int.tdiv_one]
    simp only [minInt, maxInt] at *
    omega
  have hquot : (x.tdiv y).natAbs = x.natAbs / y.natAbs := Int.natAbs_tdiv x y
  have hhalf : x.natAbs / y.natAbs ≤ x.natAbs / 2 := Nat.div_le_div_left (by omega) (by decide)
  simp only [minInt, maxInt] at *
  omega

/-- DIVIDE's accumulator (R95), where the quotient fits. -/
theorem toInt_wrap_tdiv {x y : Word} (hy : y ≠ 0) (h : ¬ (x.toInt = minInt ∧ y.toInt = -1)) :
    (wrap (x.toInt.tdiv y.toInt)).toInt = x.toInt.tdiv y.toInt := by
  obtain ⟨hlo, hhi⟩ := tdiv_fits (Word.toInt_range x) (mt (Word.toInt_eq_zero_iff y).mp hy) h
  exact toInt_wrap_of_fits hlo hhi

/-- The one quotient that does not fit (decision D3). -/
theorem toInt_wrap_minInt_tdiv_neg_one : (wrap (minInt.tdiv (-1))).toInt = minInt := by decide

/-- Settles O21: DIVIDE's end for a divisor that is not 0. -/
theorem divideTruncatesIntoTheAccumulator : Obligations.DivideTruncatesIntoTheAccumulator := by
  refine fun a s ha => ⟨decode_eq_ok_iff_toInt (i := .divide a) ha, fun hz =>
    ⟨_, exec_of_result (.divide a ha hz), toInt_wrap_tdiv hz, ?min⟩⟩
  case min =>
    rintro ⟨hx, hy⟩
    rw [hx, hy]
    exact toInt_wrap_minInt_tdiv_neg_one

/-- The remainder of truncated division (00_scope.md R7): smaller than the divisor, and of the dividend's sign. -/
theorem tmod_truncated (x : Int) {y : Int} (hy : y ≠ 0) :
    |x.tmod y| < |y| ∧ (x.tmod y = 0 ∨ (x.tmod y).sign = x.sign) := by
  constructor
  · rw [Int.abs_eq_natAbs, Int.abs_eq_natAbs, Int.natAbs_tmod]
    exact_mod_cast Nat.mod_lt x.natAbs (Int.natAbs_pos.mpr hy)
  · have hsign := Int.sign_tmod x y
    split at hsign
    · exact .inl (Int.sign_eq_zero_iff_zero.mp hsign)
    · exact .inr hsign

/-- Settles O22: by O21 the accumulator is the truncated quotient, so what is left is `tmod`. -/
theorem quotientLeavesATruncatedRemainder : Obligations.QuotientLeavesATruncatedRemainder := by
  intro a s t ha hz hfits h
  cases exec_cases h with
  | outOfRange _ _ hge => exact absurd ha (not_lt.mpr hge)
  | divideByZero _ _ hzero => exact absurd hzero hz
  | divide =>
    refine ⟨s.acc.toInt.tmod (s.mem.cell a).toInt, ?_, tmod_truncated _ (mt (Word.toInt_eq_zero_iff _).mp hz)⟩
    rw [State.setPc_acc, State.setAcc_acc, toInt_wrap_tdiv hz hfits, Int.tdiv_mul_add_tmod]

end Sys2Proof.Machine

/-! SUPPORT. 43_control.md R114: HALT. -/

namespace Sys2Proof.Machine

/-- Settles O27: HALT has one end, whatever its operand. -/
theorem haltEndsTheRunCompleted : Obligations.HaltEndsTheRunCompleted := fun a _ =>
  ⟨fun ha => decode_eq_ok_iff_toInt (i := .halt a) ha, exec_of_result (.halt a)⟩

end Sys2Proof.Machine

/-! SUPPORT. The frames of the twelve instructions (40_io.md, 41_load_store.md, 42_arithmetic.md, 43_control.md), put
together from what an execute stage does to each field. -/

namespace Sys2Proof.Machine

/-- Settles O29: the five write the accumulator and the pc only, or raise an error in `s`. -/
theorem accumulatorInstructionsFrame : Obligations.AccumulatorInstructionsFrame := by
  intro a s t i hi h
  have hres := exec_cases h
  have hkind : (∀ b, i ≠ .read b) ∧ (∀ b, i ≠ .write b) ∧ (∀ b, i ≠ .store b) ∧ ∀ b, i ≠ .halt b := by
    simp only [List.mem_cons, List.not_mem_nil, or_false] at hi
    rcases hi with rfl | rfl | rfl | rfl | rfl <;> exact ⟨nofun, nofun, nofun, nofun⟩
  obtain ⟨hread, hwrite, hstore, hhalt⟩ := hkind
  refine ⟨fun b => by rw [hres.mem_eq hread hstore], hres.ir_eq, hres.inputs_eq hread, hres.output_eq hwrite,
    hres.writeAnswers_eq hwrite, hres.writeRest_eq, hres.hostOps_eq,
    fun hrep => hres.running_of_no_report hrep hhalt, fun hrep => ?raised⟩
  case raised =>
    obtain ⟨e, ins, answers, rfl⟩ := hres.raised hrep
    exact ⟨rfl, rfl⟩

/-- READ and STORE write no cell but the one at their effective address. -/
theorem ExecResult.cell_eq {s t : State} {i : Instr} (h : ExecResult s i t) {b : Nat}
    (hb : (b : Int) ≠ effectiveAddress i.operand) : t.mem.cell b = s.mem.cell b := by
  obtain hm | ⟨a, v, hi, -, hm⟩ := h.mem_cases
  · rw [hm]
  · have hne : b ≠ a := by
      rintro rfl
      rcases hi with rfl | rfl <;> exact hb rfl
    rw [hm, Memory.cell_store_ne s.mem v hne]

/-- Settles O30: the two write memory and the pc only, READ also takes an answer, or raise an error. -/
theorem storingInstructionsFrame : Obligations.StoringInstructionsFrame := by
  intro a s t i hi h
  have hres := exec_cases h
  have hkind : i.operand = a ∧ Instr.writesAcc i = false ∧ (∀ b, i ≠ .write b) ∧ ∀ b, i ≠ .halt b := by
    simp only [List.mem_cons, List.not_mem_nil, or_false] at hi
    rcases hi with rfl | rfl <;> exact ⟨rfl, rfl, nofun, nofun⟩
  obtain ⟨hop, hacc, hwrite, hhalt⟩ := hkind
  exact ⟨fun b hb => hres.cell_eq (hop.symm ▸ hb), hres.acc_eq hacc, hres.ir_eq, hres.output_eq hwrite,
    hres.writeAnswers_eq hwrite, hres.writeRest_eq, hres.hostOps_eq,
    fun hstore => hres.inputs_eq (hstore ▸ nofun), fun hrep => hres.running_of_no_report hrep hhalt⟩

/-- The three jumps and HALT emit and report nothing and ask the collaborator for nothing. -/
theorem ExecResult.control_frame {s t : State} {i : Instr} {a : Nat}
    (hi : i ∈ [Instr.jump a, .jumpIfNegative a, .jumpIfZero a, .halt a]) (h : ExecResult s i t) :
    t.output = s.output ∧ t.writeAnswers = s.writeAnswers ∧ t.reports = s.reports := by
  obtain ⟨p, rfl⟩ | ⟨-, rfl⟩ := h.control hi
  · exact ⟨rfl, rfl, rfl⟩
  · exact ⟨rfl, rfl, rfl⟩

/-- Settles O31: WRITE touches the output, the write answers and the pc, a jump the pc, HALT the pc and the run; WRITE
may raise an error. -/
theorem outputAndControlFrame : Obligations.OutputAndControlFrame := by
  refine fun a s t => ⟨fun i hi h => ?five, fun i hi h => ?jumps⟩
  case five =>
    have hres := exec_cases h
    have hkind : Instr.writesAcc i = false ∧ (∀ b, i ≠ .read b) ∧ ∀ b, i ≠ .store b := by
      simp only [List.mem_cons, List.not_mem_nil, or_false] at hi
      rcases hi with rfl | rfl | rfl | rfl | rfl <;> exact ⟨rfl, nofun, nofun⟩
    obtain ⟨hacc, hread, hstore⟩ := hkind
    exact ⟨fun b => by rw [hres.mem_eq hread hstore], hres.acc_eq hacc, hres.ir_eq, hres.inputs_eq hread,
      hres.writeRest_eq, hres.hostOps_eq, fun hne => hres.control_frame ((List.mem_cons.mp hi).resolve_left hne)⟩
  case jumps =>
    have hcontrol : i ∈ [Instr.jump a, .jumpIfNegative a, .jumpIfZero a, .halt a] := List.mem_append_left [Instr.halt a] hi
    obtain ⟨p, rfl⟩ | ⟨rfl, -⟩ := (exec_cases h).control hcontrol
    · exact ⟨rfl, rfl⟩
    · simp at hi

end Sys2Proof.Machine

/-! SUPPORT. 44_dispatch_and_engine.md and 60_exceptions.md: one transition, read off `StepResult` and what an execute
stage does to each field. -/

namespace Sys2Proof.Machine

/-! ### The step of a running machine and its next state -/

/-- Settles O39: one of the shapes of `StepResult` is always there. -/
theorem everyStepHasANextState : Obligations.EveryStepHasANextState := fun s => (step_result s).imp fun _ h => h.1

/-- Settles O32: stages 1 to 3 of R124. -/
theorem stepRunsTheDecodedInstruction : Obligations.StepRunsTheDecodedInstruction := fun _ _ => step_of_decode

/-- Settles O34: the failed fetch is `raiseRunError` in the state itself. -/
theorem failedFetchHaltsTheRun : Obligations.FailedFetchHaltsTheRun := fun _ => step_of_fetch_fails

theorem next_unique {s t u : State} (ht : step s = .next t) (hu : step s = .next u) : t = u :=
  Host.Outcome.next.inj (ht.symm.trans hu)

/-- A running machine whose next instruction is `i` steps by an execute stage of `i`. -/
theorem execResult_of_nextInstr {s t : State} {i : Instr} (hr : s.running = true) (hn : s.nextInstr = some i)
    (h : step s = .next t) : ExecResult (s.setIr (s.mem.cell s.pc)) i t := by
  obtain ⟨hp, hd⟩ := decode_of_nextInstr hn
  exact exec_cases ((step_of_decode hr hp hd).symm.trans h)

/-! ### `ir` -/

theorem hostPerform_ir (op : HostOp) (s : State) :
    (hostPerform op s).ir = s.ir ∨ ((hostPerform op s).ir = 0 ∧ op = .reset) := by
  obtain ⟨hop, h⟩ | ⟨-, h⟩ | ⟨m, r, h⟩ := hostPerform_cases op s <;> rw [h]
  · exact .inr ⟨rfl, hop⟩
  · exact .inl rfl
  · exact .inl rfl

/-- Settles O35: the fetched word is written before the execute stage, which keeps `ir`; of the host's operations only
`reset` writes it. -/
theorem irHoldsTheWordLastFetched : Obligations.IrHoldsTheWordLastFetched := by
  refine fun s t h => ⟨fun hr hp => ?fetched, fun hr hp => ?failed, fun hr => ?halted⟩
  case fetched =>
    cases step_cases h with
    | fetchFails _ hge => exact absurd hp (not_lt.mpr hge)
    | unknownOpcode => rfl
    | executes _ _ _ _ _ he => exact he.ir_eq
    | idle hr' | serves hr' => simp [hr] at hr'
  case failed =>
    obtain rfl := next_unique (step_of_fetch_fails hr hp) h
    rfl
  case halted =>
    cases step_cases h with
    | fetchFails hr' | unknownOpcode hr' | executes hr' => simp [hr] at hr'
    | idle => exact .inl rfl
    | serves _ op rest hops =>
      exact (hostPerform_ir op (s.setHostOps rest)).imp_right fun ⟨hzero, hop⟩ => ⟨hzero, rest, hop ▸ hops⟩

/-! ### The run errors -/

/-- A running step that reports has raised an error, before which only `ir` was written and an answer of the
collaborator taken. -/
theorem step_raised {s t : State} (hr : s.running = true) (h : step s = .next t) (hrep : t.reports ≠ s.reports) :
    ∃ e w ins answers, t = raiseRunError e (((s.setIr w).setInputs ins).setWriteAnswers answers) := by
  cases step_cases h with
  | fetchFails => exact ⟨_, s.ir, s.inputs, s.writeAnswers, rfl⟩
  | unknownOpcode => exact ⟨_, s.mem.cell s.pc, s.inputs, s.writeAnswers, rfl⟩
  | executes _ _ _ _ _ he =>
    obtain ⟨e, ins, answers, ht⟩ := he.raised hrep
    exact ⟨e, _, ins, answers, ht⟩
  | idle hr' | serves hr' => simp [hr] at hr'

/-- Settles O37: `raiseRunError` touches `running`, the reports and the results; what `ir` holds is O35. -/
theorem runErrorsArePrecise : Obligations.RunErrorsArePrecise := by
  intro s t hr h hrep
  obtain ⟨hfetched, hfailed, -⟩ := irHoldsTheWordLastFetched s t h
  obtain ⟨e, w, ins, answers, rfl⟩ := step_raised hr h hrep
  exact ⟨e, rfl, rfl, rfl, rfl, rfl, rfl, rfl, hfetched hr, hfailed hr⟩

/-- The case of each run error at the step of a running machine (60_exceptions.md R140). -/
def State.raises (s : State) : RunError → Prop
  | .addressOutOfRange => memorySize ≤ s.pc
  | .unknownOpcode => s.pc < memorySize ∧ dispatch (opcodeField (s.mem.cell s.pc)) = none
  | .divisionByZero => ∃ a, s.nextInstr = some (.divide a) ∧ s.mem.cell a = 0
  | .ioFailure => (∃ a rest, s.nextInstr = some (.read a) ∧ s.inputs = .fail :: rest) ∨
      ∃ a, s.nextInstr = some (.write a) ∧ s.writeAnswers.headD s.writeRest = .fail

/-- The report names the case the step was in. -/
theorem raises_of_reports {s t : State} {e : RunError} (hr : s.running = true) (h : step s = .next t)
    (hrep : t.reports = s.reports ++ [e]) : s.raises e := by
  cases step_cases h with
  | fetchFails _ hp =>
    obtain rfl : RunError.addressOutOfRange = e := by simpa using hrep
    exact hp
  | unknownOpcode _ hp r hd =>
    obtain rfl : RunError.unknownOpcode = e := by simpa using hrep
    exact ⟨hp, (decode_eq_error hd).1⟩
  | executes _ hp i hd _ he =>
    have hn := nextInstr_of_decode hp hd
    have hop := operand_lt_of_decode hd
    cases he with
    | readFails a rest hin =>
      obtain rfl : RunError.ioFailure = e := by simpa using hrep
      exact .inl ⟨a, rest, hn, hin⟩
    | writeFails a _ hw =>
      obtain rfl : RunError.ioFailure = e := by simpa using hrep
      exact .inr ⟨a, hn, hw⟩
    | divideByZero a _ hz =>
      obtain rfl : RunError.divisionByZero = e := by simpa using hrep
      exact ⟨a, hn, hz⟩
    | readOutOfRange _ _ _ _ ha | outOfRange _ _ ha => exact absurd hop (not_lt.mpr ha)
    | _ => simp at hrep
  | idle hr' | serves hr' => simp [hr] at hr'

/-- In each error's case the step reports it. -/
theorem step_of_raises {s : State} {e : RunError} (hr : s.running = true) (h : s.raises e) :
    ∃ t, step s = .next t ∧ t.reports = s.reports ++ [e] := by
  cases e with
  | addressOutOfRange => exact ⟨_, step_of_fetch_fails hr h, rfl⟩
  | unknownOpcode => exact ⟨_, step_of_dispatch_eq_none hr h.1 h.2, rfl⟩
  | divisionByZero =>
    obtain ⟨a, hn, hz⟩ := h
    exact ⟨_, step_of_zero_divisor hr hn hz, rfl⟩
  | ioFailure =>
    obtain ⟨a, rest, hn, hin⟩ | ⟨a, hn, hw⟩ := h
    all_goals
      obtain ⟨hp, hd⟩ := decode_of_nextInstr hn
      rw [step_of_decode hr hp hd]
    · exact ⟨_, exec_of_result (.readFails a rest hin), rfl⟩
    · exact ⟨_, exec_of_result (.writeFails a (operand_lt_of_decode hd) hw), rfl⟩

theorem reports_iff_raises {s t : State} (hr : s.running = true) (h : step s = .next t) (e : RunError) :
    t.reports = s.reports ++ [e] ↔ s.raises e := by
  refine ⟨raises_of_reports hr h, fun hraises => ?_⟩
  obtain ⟨u, hu, hrep⟩ := step_of_raises hr hraises
  rwa [next_unique h hu]

/-- Settles O38: the four rows of `State.raises`. -/
theorem eachRunErrorHasItsOneCause : Obligations.EachRunErrorHasItsOneCause := fun _ _ hr h =>
  ⟨reports_iff_raises hr h .addressOutOfRange, reports_iff_raises hr h .unknownOpcode,
    reports_iff_raises hr h .divisionByZero, reports_iff_raises hr h .ioFailure⟩

/-! ### The program counter, the streams and the host's requests -/

/-- Settles O36: an error keeps the pc (O37), a completed stage follows the table, a waiting READ is the fetched state. -/
theorem pcFollowsTheControllerTable : Obligations.PcFollowsTheControllerTable := by
  refine fun s t hr h => ⟨fun hrep => ?error, fun i hn hrep hwait => ?completed, fun a hn hin => ?waiting⟩
  case error =>
    obtain ⟨e, w, ins, answers, rfl⟩ := step_raised hr h hrep
    rfl
  case completed => exact (execResult_of_nextInstr hr hn h).pc_of_completed hrep hwait
  case waiting =>
    cases execResult_of_nextInstr hr hn h with
    | readWaits => rfl
    | readFails _ _ hsome | readStores _ _ _ hsome | readOutOfRange _ _ _ hsome => simp [hin] at hsome
    | outOfRange _ hcheck => cases hcheck

/-- Settles O44: the two stages before execution touch neither stream. -/
theorem onlyReadTakesInputOnlyWriteEmits : Obligations.OnlyReadTakesInputOnlyWriteEmits := by
  intro s t hr h
  cases step_cases h with
  | fetchFails | unknownOpcode => exact ⟨.inl rfl, .inl rfl⟩
  | executes _ hp i hd _ he =>
    have hn := nextInstr_of_decode hp hd
    exact ⟨he.inputs_cases.imp_right fun ⟨htail, a, hi⟩ => ⟨htail, a, hi ▸ hn⟩,
      he.output_cases.imp_right fun ⟨a, hi, hout⟩ => ⟨a, hi ▸ hn, hout⟩⟩
  | idle hr' | serves hr' => simp [hr] at hr'

/-- A running step leaves the host's requests pending. -/
theorem step_hostOps {s t : State} (hr : s.running = true) (h : step s = .next t) : t.hostOps = s.hostOps := by
  cases step_cases h with
  | fetchFails | unknownOpcode => rfl
  | executes _ _ _ _ _ he => exact he.hostOps_eq
  | idle hr' | serves hr' => simp [hr] at hr'

/-- Settles O58: the refusal is the first branch of `hostOperation`. -/
theorem hostHasNoMoveDuringARun : Obligations.HostHasNoMoveDuringARun := fun _ hr =>
  ⟨fun _ => if_pos hr, fun _ => step_hostOps hr⟩

/-! ### Running and Halted -/

/-- The report and the result of a run from `s`, seen in `t`: none while it goes on, and at its end one outcome, with one
report exactly if it failed. -/
def State.OutcomeSince (s t : State) : Prop :=
  (t.running = true ∧ t.reports = s.reports ∧ t.hostResults = s.hostResults) ∨
  (t.running = false ∧ t.reports = s.reports ∧ t.hostResults = s.hostResults ++ [.runEnded .completed]) ∨
  (t.running = false ∧ ∃ e, t.reports = s.reports ++ [e] ∧ t.hostResults = s.hostResults ++ [.runEnded (.failed e)])

/-- `step_outcome` under its name. -/
theorem step_outcomeSince {s t : State} (hr : s.running = true) (h : step s = .next t) : s.OutcomeSince t :=
  step_outcome hr h

/-- A run that still goes on has reported and returned nothing. -/
theorem State.OutcomeSince.of_running {s t : State} (h : s.OutcomeSince t) (ht : t.running = true) :
    t.reports = s.reports ∧ t.hostResults = s.hostResults := by
  obtain ⟨-, hkept⟩ | ⟨hoff, -⟩ | ⟨hoff, -⟩ := h
  · exact hkept
  · simp [ht] at hoff
  · simp [ht] at hoff

/-- A run that is over has one outcome. -/
theorem State.OutcomeSince.of_halted {s t : State} (h : s.OutcomeSince t) (ht : t.running = false) :
    (t.reports = s.reports ∧ t.hostResults = s.hostResults ++ [.runEnded .completed]) ∨
    ∃ e, t.reports = s.reports ++ [e] ∧ t.hostResults = s.hostResults ++ [.runEnded (.failed e)] := by
  obtain ⟨hon, -⟩ | ⟨-, hcompleted⟩ | ⟨-, hfailed⟩ := h
  · simp [ht] at hon
  · exact .inl hcompleted
  · exact .inr hfailed

/-- A running step that ends the run without a report ran HALT. -/
theorem nextInstr_of_completed {s t : State} (hr : s.running = true) (h : step s = .next t) (ht : t.running = false)
    (hrep : t.reports = s.reports) : ∃ a, s.nextInstr = some (.halt a) := by
  cases step_cases h with
  | fetchFails | unknownOpcode => simp at hrep
  | executes _ hp i hd _ he =>
    by_contra hno
    have hhalt : ∀ a, i ≠ .halt a := fun a hi => hno ⟨a, hi ▸ nextInstr_of_decode hp hd⟩
    obtain ⟨hrunning, -⟩ := he.running_of_no_report hrep hhalt
    rw [ht, State.setIr_running, hr] at hrunning
    cases hrunning
  | idle hr' | serves hr' => simp [hr] at hr'

/-- A halted machine is started only by `execute`. -/
theorem execute_of_started {s t : State} (hr : s.running = false) (h : step s = .next t) (ht : t.running = true) :
    ∃ rest, s.hostOps = .execute :: rest := by
  cases step_cases h with
  | fetchFails hr' | unknownOpcode hr' | executes hr' => simp [hr] at hr'
  | idle => simp [hr] at ht
  | serves _ op rest hops =>
    obtain ⟨-, heq⟩ | ⟨hop, -⟩ | ⟨m, r, heq⟩ := hostPerform_cases op (s.setHostOps rest)
    · rw [heq] at ht
      cases ht
    · exact ⟨rest, hop ▸ hops⟩
    · rw [heq, State.answerHost_running, State.setMem_running, State.setHostOps_running, hr] at ht
      cases ht

/-- Settles O45: `State.OutcomeSince` for a running machine, and `execute` for a halted one. -/
theorem runningChangesOnlyByHaltErrorOrExecute : Obligations.RunningChangesOnlyByHaltErrorOrExecute := by
  refine fun s t h => ⟨fun hr ht => ?ends, fun hr ht => (step_outcomeSince hr h).of_running ht,
    fun hr ht => execute_of_started hr h ht⟩
  case ends =>
    obtain ⟨hrep, hres⟩ | hfailed := (step_outcomeSince hr h).of_halted ht
    · obtain ⟨a, hn⟩ := nextInstr_of_completed hr h ht hrep
      exact .inl ⟨a, hn, hrep, hres⟩
    · exact .inr hfailed

end Sys2Proof.Machine

/-! SUPPORT. 40_io.md R70(a), 43_control.md R111, 70_reset_and_hazards.md R180 and R181: the steps that change nothing but
`ir`, any number of them, and the step off the end of memory. -/

namespace Sys2Proof.Machine

/-! ### Steps that change nothing but `ir` -/

/-- A state that steps to itself stays for any number of transitions. -/
theorem reaches_of_fixed {s : State} (h : step s = .next s) (k : Nat) : Reaches k s s := by
  induction k with
  | zero => rfl
  | succ k ih => exact ⟨s, h, ih⟩

theorem runUntilHalted_of_fixed {s : State} (hr : s.running = true) (h : step s = .next s) (fuel : Nat) :
    runUntilHalted fuel s = none := by
  induction fuel with
  | zero => exact runUntilHalted_zero_of_running hr
  | succ fuel ih => rw [runUntilHalted_of_step hr h, ih]

/-- The step of a READ without an answer: the fetch and nothing else (log 10). -/
theorem step_of_waiting_read {s : State} {a : Nat} (hr : s.running = true) (hp : s.pc < memorySize)
    (hd : decode (s.mem.cell s.pc) = .ok (.read a)) (hin : s.inputs = []) :
    step s = .next (s.setIr (s.mem.cell s.pc)) :=
  (step_of_decode hr hp hd).trans (exec_of_result (.readWaits a hin))

/-- The step of a JUMP to its own address: the fetch and nothing else. -/
theorem step_of_jump_to_itself {s : State} (hr : s.running = true) (hp : s.pc < memorySize)
    (hd : decode (s.mem.cell s.pc) = .ok (.jump s.pc)) : step s = .next (s.setIr (s.mem.cell s.pc)) :=
  (step_of_decode hr hp hd).trans (exec_of_result (.jump s.pc))

/-- Settles O12: the state the first transition leaves is again a READ without an answer, with its word in `ir`. -/
theorem unansweredReadWaitsForEver : Obligations.UnansweredReadWaitsForEver := fun _ s hr hp hd hin k =>
  ⟨_, step_of_waiting_read hr hp hd hin,
    reaches_of_fixed (step_of_waiting_read (s := s.setIr (s.mem.cell s.pc)) hr hp hd hin) k⟩

/-- Settles O13: the wait leaves only `ir` behind, which the next step's fetch writes anyway. -/
theorem lateAnswerResumesTheRead : Obligations.LateAnswerResumesTheRead := by
  intro a s r hr hp hd hin
  refine ⟨_, step_of_waiting_read hr hp hd hin, ?_⟩
  rw [step_of_decode (s := collaboratorOffers r (s.setIr (s.mem.cell s.pc))) hr hp hd,
    step_of_decode (s := collaboratorOffers r s) hr hp hd]
  rfl

/-- Settles O47: the state the first transition leaves jumps to itself. -/
theorem jumpToItselfNeverEnds : Obligations.JumpToItselfNeverEnds := by
  intro s hr hp hd
  have hfirst := step_of_jump_to_itself hr hp hd
  have hfixed := step_of_jump_to_itself (s := s.setIr (s.mem.cell s.pc)) hr hp hd
  refine ⟨fun k => ⟨_, hfirst, reaches_of_fixed hfixed k⟩, fun fuel => ?_⟩
  cases fuel with
  | zero => exact runUntilHalted_zero_of_running hr
  | succ fuel =>
    exact (runUntilHalted_of_step hr hfirst fuel).trans
      (runUntilHalted_of_fixed (s := s.setIr (s.mem.cell s.pc)) hr hfixed fuel)

/-- Settles O48: a step that goes on has reported nothing, so the pc is the controller's, and address 100 fails the
fetch. -/
theorem runningOffTheEndFails : Obligations.RunningOffTheEndFails := by
  intro s t i hr _ hn h ht hpc hwait
  obtain ⟨hrep, -⟩ := (step_outcomeSince hr h).of_running ht
  obtain ⟨-, hcompleted, -⟩ := pcFollowsTheControllerTable s t hr h
  have htpc : t.pc = 100 := (hcompleted i hn hrep hwait).trans hpc
  exact ⟨htpc, _, step_of_fetch_fails ht htpc.ge, rfl, rfl, htpc⟩

end Sys2Proof.Machine

/-! SUPPORT. 44_dispatch_and_engine.md R123, R134: what has happened since a run began, by induction over `Run`; the
executor is the runs in which no answer arrives. -/

namespace Sys2Proof.Machine

/-! ### Along a run -/

theorem Run.outcomeSince {s t : State} {arrived : List ReadAnswer} {n : Nat} (hr : s.running = true)
    (h : Run s arrived n t) : s.OutcomeSince t := by
  induction h with
  | begun => exact .inl ⟨hr, rfl, rfl⟩
  | stepped _ hu hstep ih =>
    obtain ⟨hrep, hres⟩ := ih.of_running hu
    rw [State.OutcomeSince, ← hrep, ← hres]
    exact step_outcomeSince hu hstep
  | answered _ _ _ ih => exact ih

theorem Run.hostOps_eq {s t : State} {arrived : List ReadAnswer} {n : Nat} (h : Run s arrived n t) :
    t.hostOps = s.hostOps := by
  induction h with
  | begun => rfl
  | stepped _ hu hstep ih => exact (step_hostOps hu hstep).trans ih
  | answered _ _ _ ih => exact ih

/-- The output of a run only grows. -/
theorem Run.output_grows {s t : State} {arrived : List ReadAnswer} {n : Nat} (h : Run s arrived n t) :
    ∃ out, t.output = s.output ++ out := by
  induction h with
  | begun => exact ⟨[], (List.append_nil _).symm⟩
  | stepped _ hu hstep ih =>
    obtain ⟨out, hout⟩ := ih
    obtain ⟨-, more, hmore⟩ := step_streams hu hstep
    exact ⟨out ++ more, by rw [hmore, hout, List.append_assoc]⟩
  | answered _ _ _ ih => exact ih

/-- The answers of a run from `s` that has come to `t`: the words consumed, then those left; or, once a `Fail` has ended
the run, that `Fail` between the two (log 9). -/
def State.AnswersSince (s t : State) (arrived : List ReadAnswer) (values : List Word) : Prop :=
  s.inputs ++ arrived = values.map .value ++ t.inputs ∨
    (t.running = false ∧ t.hostResults = s.hostResults ++ [.runEnded (.failed .ioFailure)] ∧
      s.inputs ++ arrived = values.map .value ++ .fail :: t.inputs)

/-- While the run goes on no `Fail` has been taken. -/
theorem State.AnswersSince.of_running {s t : State} {arrived : List ReadAnswer} {values : List Word}
    (h : s.AnswersSince t arrived values) (ht : t.running = true) :
    s.inputs ++ arrived = values.map .value ++ t.inputs := by
  obtain hleft | ⟨hoff, -⟩ := h
  · exact hleft
  · simp [ht] at hoff

/-- The words a run has consumed are the oldest of those ready and arrived, in order. -/
theorem Run.answersSince {s t : State} {arrived : List ReadAnswer} {n : Nat} (hr : s.running = true)
    (h : Run s arrived n t) : ∃ values : List Word, values.length = n ∧ s.AnswersSince t arrived values := by
  induction h with
  | begun => exact ⟨[], rfl, .inl (List.append_nil _)⟩
  | @stepped arrived n u t hrun hu hstep ih =>
    obtain ⟨values, hlen, hvalues⟩ := ih
    obtain ⟨⟨taken, htaken, hcases⟩, -⟩ := step_streams hu hstep
    obtain ⟨-, hres⟩ := (hrun.outcomeSince hr).of_running hu
    refine ⟨values ++ taken, ?_, ?_⟩
    · rw [List.length_append, hlen, htaken]
      split <;> rfl
    · rw [State.AnswersSince, hvalues.of_running hu, List.map_append, List.append_assoc, List.append_assoc, ← hres]
      exact hcases.imp (congrArg _) fun ⟨hoff, hend, hin⟩ => ⟨hoff, hend, congrArg _ hin⟩
  | @answered arrived n u _ hu r ih =>
    obtain ⟨values, hlen, hvalues⟩ := ih
    refine ⟨values, hlen, .inl ?_⟩
    rw [← List.append_assoc, hvalues.of_running hu, List.append_assoc]
    rfl

/-! ### The observation -/

/-- The outcome and the report of an observation are those of the run. -/
theorem State.OutcomeSince.observe {s t : State} (h : s.OutcomeSince t) (ht : t.running = false) (n : Nat) :
    (((t.observe s n).outcome = some .completed ∧ (t.observe s n).report = none) ∨
      ∃ e, (t.observe s n).outcome = some (.failed e) ∧ (t.observe s n).report = some e) ∧
    t.reports = s.reports ++ (t.observe s n).report.toList := by
  rw [State.observe_outcome, State.observe_report]
  obtain ⟨hrep, hres⟩ | ⟨e, hrep, hres⟩ := h.of_halted ht
  · rw [hrep, hres]
    simp
  · rw [hrep, hres]
    simp

/-- Settles O49: each observed field from what has happened along the run; the dumps are the host's operations at the
end. -/
theorem finishedRunIsObservedAsStated : Obligations.FinishedRunIsObservedAsStated := by
  intro s t arrived n hr hrun ht
  obtain ⟨houtcome, hreports⟩ := (hrun.outcomeSince hr).observe ht n
  refine ⟨houtcome, hreports, ?output, ?inputs, hostOperation_of_halted ht .dumpRegisters,
    hostOperation_of_halted ht .dumpMemory⟩
  case output =>
    obtain ⟨out, hout⟩ := hrun.output_grows
    rw [State.observe_output, hout, List.drop_left]
  case inputs =>
    obtain ⟨values, hlen, hvalues⟩ := hrun.answersSince hr
    refine ⟨values, hlen, hvalues.imp_right fun ⟨_, hres, hin⟩ => ⟨?_, hin⟩⟩
    rw [State.observe_outcome, hres, List.drop_left, runOutcome_runEnded]

/-! ### The executor -/

/-- The inputs consumed are those that have left the list, if none arrived: a `Fail` is no input. -/
theorem Run.consumed_eq {s t : State} {n : Nat} (hr : s.running = true) (h : Run s [] n t) :
    inputCount s.inputs - inputCount t.inputs = n := by
  obtain ⟨values, hlen, hvalues⟩ := h.answersSince hr
  have hcount : inputCount s.inputs = n + inputCount t.inputs := by
    obtain hin | ⟨-, -, hin⟩ := hvalues
    all_goals
      rw [List.append_nil] at hin
      rw [hin]
      simp [hlen]
  omega

/-- A halted state is what the executor answers from it. -/
theorem eq_of_executor_of_halted {s t : State} {fuel : Nat} (hr : s.running = false)
    (h : runUntilHalted fuel s = some t) : s = t :=
  Option.some.inj ((runUntilHalted_of_halted hr fuel).symm.trans h)

/-- The executor extends a run that is on its way to the run's end. -/
theorem Run.executed {start s t : State} {arrived : List ReadAnswer} {n fuel : Nat} (h : Run start arrived n s)
    (ht : runUntilHalted fuel s = some t) : t.running = false ∧ ∃ m, Run start arrived m t := by
  induction fuel generalizing s n with
  | zero =>
    cases hr : s.running with
    | false =>
      obtain rfl := eq_of_executor_of_halted hr ht
      exact ⟨hr, n, h⟩
    | true => simp [runUntilHalted_zero_of_running hr] at ht
  | succ fuel ih =>
    cases hr : s.running with
    | false =>
      obtain rfl := eq_of_executor_of_halted hr ht
      exact ⟨hr, n, h⟩
    | true =>
      obtain ⟨u, hu, -⟩ := step_result s
      rw [runUntilHalted_of_step hr hu] at ht
      exact ih (h.stepped hr hu) ht

/-- From its start the executor comes to every state of a run without arrivals, having used as much fuel as the run has
steps. -/
theorem Run.runUntilHalted_eq {s t : State} {arrived : List ReadAnswer} {n : Nat} (h : Run s arrived n t)
    (hnone : arrived = []) : ∃ k, ∀ fuel, runUntilHalted (fuel + k) s = runUntilHalted fuel t := by
  induction h with
  | begun => exact ⟨0, fun _ => rfl⟩
  | stepped _ hu hstep ih =>
    obtain ⟨k, hk⟩ := ih hnone
    refine ⟨k + 1, fun fuel => ?_⟩
    rw [← runUntilHalted_of_step hu hstep fuel, ← hk (fuel + 1)]
    congr 1
    omega
  | answered => simp at hnone

/-- Settles O50: the executor's steps are the run's, in both directions. -/
theorem executorFindsExactlyTheFinishedRuns : Obligations.ExecutorFindsExactlyTheFinishedRuns := by
  refine fun s t => ⟨fun fuel h => ?found, fun n hrun ht => ?finds⟩
  case found =>
    cases hr : s.running with
    | false =>
      obtain rfl := eq_of_executor_of_halted hr h
      rw [Nat.sub_self]
      exact ⟨hr, .begun⟩
    | true =>
      obtain ⟨ht, n, hrun⟩ := Run.begun.executed h
      rw [hrun.consumed_eq hr]
      exact ⟨ht, hrun⟩
  case finds =>
    obtain ⟨k, hk⟩ := hrun.runUntilHalted_eq rfl
    exact ⟨0 + k, (hk 0).trans (runUntilHalted_of_halted ht 0)⟩

/-- Settles O46: what the executor answers is the end of a run (O50), and a run that has ended has one outcome. -/
theorem everyEndedRunHasOneOutcome : Obligations.EveryEndedRunHasOneOutcome := by
  intro fuel s t hr h
  obtain ⟨ht, n, hrun⟩ := Run.begun.executed h
  exact ⟨ht, hrun.hostOps_eq, (hrun.outcomeSince hr).of_halted ht⟩

end Sys2Proof.Machine

/-! SUPPORT. 10_state.md R21, 20_memory.md R44, 60_exceptions.md R157 and 70_reset_and_hazards.md: the machine as created,
and the host's operations on a halted machine. -/

namespace Sys2Proof.Machine

/-- Settles O52: the fields of `State.reset`, and a memory that lists no cell. -/
theorem resetStateIsAllZero : Obligations.ResetStateIsAllZero := ⟨rfl, rfl, rfl, rfl, fun _ => rfl⟩

/-- A full image and the memory it gives, cell by cell (R172). -/
theorem Memory.getElem?_eq_cell_ofImage {image : List Word} {a : Nat} (ha : a < image.length) :
    image[a]? = some ((Memory.ofImage image).cell a) := by
  rw [Memory.cell_ofImage, List.getD_eq_getElem _ _ ha, List.getElem?_eq_getElem ha]

/-- Settles O54: the two branches of `hostLoad`. -/
theorem hostLoadReplacesMemoryWholesale : Obligations.HostLoadReplacesMemoryWholesale := by
  refine fun image s hr => ⟨fun hl => ?full, fun hl => ?rejected⟩
  case full =>
    refine ⟨(s.setMem (Memory.ofImage image)).answerHost .done, ?_, rfl, fun a ha =>
      Memory.getElem?_eq_cell_ofImage (hl.symm ▸ ha)⟩
    rw [hostOperation_of_halted hr, hostPerform, hostLoad_of_length hl]
  case rejected =>
    rw [hostOperation_of_halted hr, hostPerform, hostLoad_of_length_ne hl]
    rfl

/-- Settles O55: `execute` is `State.startRun`. -/
theorem hostExecuteStartsAtAddressZero : Obligations.HostExecuteStartsAtAddressZero := fun _ hr =>
  hostOperation_of_halted hr .execute

/-- Settles O56: at a valid address the two operations are one cell's read and write. -/
theorem hostReadsAndWritesOneCell : Obligations.HostReadsAndWritesOneCell := by
  refine fun a v s hr ha => ⟨?read, fun hm => ?write⟩
  case read =>
    rw [hostOperation_of_halted hr, hostPerform, hostReadMemory_of_valid (a := a) (decide_eq_true ha)]
    rfl
  case write =>
    refine ⟨(s.setMem (s.mem.store a v)).answerHost .done, ?_, rfl, Memory.cell_store_same hm a v,
      fun b hb => Memory.cell_store_ne s.mem v hb⟩
    rw [hostOperation_of_halted hr, hostPerform, hostWriteMemory_of_lt ha]

theorem Memory.length_dump (m : Memory) : m.dump.length = memorySize := by
  rw [Memory.dump, List.length_map, List.length_range]

theorem Memory.getElem?_dump (m : Memory) {a : Nat} (ha : a < memorySize) : m.dump[a]? = some (m.cell a) := by
  rw [Memory.dump, List.getElem?_map, List.getElem?_range ha, Option.map_some]

/-- Settles O57: the dumps return `s`'s own registers and cells, and append nothing else. -/
theorem hostDumpsAreReadOnlySnapshots : Obligations.HostDumpsAreReadOnlySnapshots := fun s hr =>
  ⟨hostOperation_of_halted hr .dumpRegisters, s.mem.dump, s.mem.length_dump, fun _ => s.mem.getElem?_dump,
    hostOperation_of_halted hr .dumpMemory⟩

theorem serveHost_of_nil {s : State} (h : s.hostOps = []) : serveHost s = .next s := by
  simp only [serveHost, h]

theorem serveHost_of_cons {s : State} {op : HostOp} {rest : List HostOp} (h : s.hostOps = op :: rest) :
    serveHost s = hostOperation op (s.setHostOps rest) := by
  simp only [serveHost, h]

/-- Settles O59: the two branches of `serveHost`. -/
theorem haltedStepServesTheHost : Obligations.HaltedStepServesTheHost := fun _ hr =>
  ⟨fun h => (step_of_halted hr).trans (serveHost_of_nil h),
    fun _ _ h => (step_of_halted hr).trans (serveHost_of_cons h)⟩

end Sys2Proof.Machine
